-- ==== Sys2Proof/Word.lean ====
section
/-! DEFINITION. The word types of the block: 64-bit data words, bytes, and the 4-bit operation-select code. -/

namespace Sys2Proof

/-- A 64-bit unsigned word: `v0..v3`, `m`, `digest` (00_scope.md R7, `W`).
Addition of words is addition modulo 2^64 (45_sipround.md R176). -/
abbrev Word := BitVec 64

/-- A byte of `KEY` or `MSG` (20_memory.md R50, R51). -/
abbrev Byte := BitVec 8

/-- An operation-select code of format OP4 (30_encoding.md R70). -/
abbrev OpCode := BitVec 4

end Sys2Proof
end

