-- ==== Sys2Proof/Config.lean ====
section
/-! DEFINITION. What is fixed for the hardware (00_scope.md R7, R8): the initialisation constants as one record, the
round counts and the finalisation constant. The byte counts 16 (`KEY_BYTES`) and 8 (`BLOCK_BYTES`) and the rotation
amounts stand as numerals where the rules use them. -/

namespace Sys2Proof

/-- The record of the four initialisation constants, which 00_scope.md R8 asks a model to carry. -/
structure InitConstants where
  iv0 : Word
  iv1 : Word
  iv2 : Word
  iv3 : Word
  deriving DecidableEq, Repr

/-- PRESUMED (log 15): `IV0..IV3` as 00_scope.md R8 fixes them (90_conflicts.md C1): each string of eight characters
is read with its FIRST character as the most significant byte. -/
def Config.initConstants : InitConstants where
  iv0 := 0x736f6d6570736575#64  -- "somepseu"
  iv1 := 0x646f72616e646f6d#64  -- "dorandom"
  iv2 := 0x6c7967656e657261#64  -- "lygenera"
  iv3 := 0x7465646279746573#64  -- "tedbytes"

/-- `C_ROUNDS`: SipRounds per absorbed block word (R7), as `XIN` loads it into the 3-bit `rc` (R76). -/
abbrev Config.cRounds : BitVec 3 := 2#3

/-- `D_ROUNDS`: SipRounds in finalisation (R7), as `FXOR` loads it into the 3-bit `rc` (R76). -/
abbrev Config.dRounds : BitVec 3 := 4#3

/-- `FINAL_CONST` (R7), zero-extended to 64 bits (R76). -/
abbrev Config.finalConst : Word := 0x00000000000000ff#64

end Sys2Proof
end

