-- ==== Sys2Proof/Syntax.lean ====
section
/-! DEFINITION. What the block executes and what a host writes for it: the twelve operation codes as one inductive
(30_encoding.md R71), and the job descriptor, which is this hardware's program (30_encoding.md R81). -/

namespace Sys2Proof

/-- One constructor per row of the operation map (30_encoding.md R71). No operation has an operand field: every operand
is implicit (R72), so no constructor has an argument. -/
inductive Instr where
  | idle   -- 0x0, quiescent
  | kchk   -- 0x1
  | init   -- 0x2
  | ldblk  -- 0x3
  | pack   -- 0x4
  | xin    -- 0x5
  | rnd    -- 0x6
  | xout   -- 0x7
  | fxor   -- 0x8
  | out    -- 0x9
  | done   -- 0xA, quiescent
  | err    -- 0xB, quiescent
  deriving DecidableEq, Repr

/-- A read-only byte space (20_memory.md R50, R51) as (offset, byte) cells, offsets strictly rising (`Memory.wf`).
An offset that is not listed holds no byte (log 5). -/
abbrev Memory := List Host.Cell

/-- The job descriptor `J = (key_len, key bytes, data_len, data bytes)` of 10_state.md R30 and 40_job_control.md R100.
The lengths are unbounded naturals (00_scope.md R9, log 4). -/
structure JobDescriptor where
  keyLen  : Nat
  key     : Memory
  dataLen : Nat
  data    : Memory
  deriving DecidableEq, Repr

end Sys2Proof
end

