-- ==== Sys2Proof/Decode.lean ====
section
/-! DEFINITION. The decoder, a total function from the sixteen 4-bit values to the twelve named codes or "reserved"
(30_encoding.md R70, R71, R78), and the encoder beside it. -/

namespace Sys2Proof

/-- Why a code is no operation. -/
inductive DecodeError where
  /-- One of `0xC..0xF` (30_encoding.md R78). -/
  | reserved (code : OpCode)
  deriving DecidableEq, Repr

/-- The operation map of 30_encoding.md R71; the codes `0xC..0xF` are reserved (R78). -/
def decode (c : OpCode) : Except DecodeError Instr :=
  match c with
  | 0x0#4 => .ok .idle
  | 0x1#4 => .ok .kchk
  | 0x2#4 => .ok .init
  | 0x3#4 => .ok .ldblk
  | 0x4#4 => .ok .pack
  | 0x5#4 => .ok .xin
  | 0x6#4 => .ok .rnd
  | 0x7#4 => .ok .xout
  | 0x8#4 => .ok .fxor
  | 0x9#4 => .ok .out
  | 0xA#4 => .ok .done
  | 0xB#4 => .ok .err
  | c => .error (.reserved c)

/-- The code of an operation (30_encoding.md R71), which is also the value `seq` takes for it (10_state.md R26). -/
def encode : Instr → OpCode
  | .idle => 0x0#4
  | .kchk => 0x1#4
  | .init => 0x2#4
  | .ldblk => 0x3#4
  | .pack => 0x4#4
  | .xin => 0x5#4
  | .rnd => 0x6#4
  | .xout => 0x7#4
  | .fxor => 0x8#4
  | .out => 0x9#4
  | .done => 0xA#4
  | .err => 0xB#4

/-- The OP4 code in a word of the operation table: its bits 3:0, the table's mask `0xF` (30_encoding.md R71, log 17). -/
def tableCode (w : Nat) : OpCode := BitVec.ofNat 4 w

/-- The instruction the decoder reads from a table word of `nbits` bits. A word of fewer than four bits holds no OP4
code. -/
def decodeTableWord (nbits w : Nat) : Option Instr :=
  if nbits < 4 then none
  else match decode (tableCode w) with
    | .ok i => some i
    | .error _ => none

end Sys2Proof
end

