-- ==== Sys2Proof/Machine/State.lean ====
section
/-! DEFINITION. The state of one block instance (10_state.md R20), the reasons a step or a host transaction can stop,
the host's transactions as data, and the state after reset (10_state.md R39). -/

namespace Sys2Proof.Machine

/-- The state accumulator: four 64-bit registers, no aliases, no banks (10_state.md R21). -/
structure Acc where
  v0 : Word
  v1 : Word
  v2 : Word
  v3 : Word
  deriving DecidableEq, Repr

/-- The complete state of one block instance (10_state.md R20: "Nothing else is state"). -/
structure State where
  /-- The state accumulator (R21). -/
  v      : Acc
  /-- The block word register (R22). -/
  m      : Word
  /-- The result register (R23). -/
  digest : Word
  /-- The code of the next operation: this hardware's program counter (R26). -/
  seq    : OpCode
  /-- The stage: 0 BLOCK, 1 TAIL, 2 FINAL, 3 reserved (R27). -/
  stg    : BitVec 2
  /-- SipRounds still to run in the current burst (R28). -/
  rc     : BitVec 3
  /-- Message bytes consumed so far (R29); an unbounded natural (00_scope.md R9, log 4). -/
  off    : Nat
  /-- The captured job descriptor, or none (R30, R39). -/
  job    : Option JobDescriptor
  deriving DecidableEq, Repr

/-- The two byte address spaces (20_memory.md R50, R51, R60). -/
inductive Space where
  | key
  | msg
  deriving DecidableEq, Repr

/-- Why the engine or a host transaction cannot go on. Every one stands for a state the hardware never reaches
(60_exceptions.md R215: "a model marks them as faults so that nothing can be proved of them"), so every one is SAFE. -/
inductive Fault where
  /-- `seq` holds one of `0xC..0xF` (30_encoding.md R78). Raised by `step` and by SUBMIT, READ_STATUS and READ_DIGEST
  (log 21). Safe. -/
  | reservedSeq
  /-- `stg` holds the reserved code 3 (30_encoding.md R78: such a state has no step and is never final). Raised by all
  twelve operations and by SUBMIT, READ_STATUS and READ_DIGEST (log 12). Safe. -/
  | reservedStage
  /-- An operation reads the job descriptor and none is captured (10_state.md R39, log 14). Raised by `KCHK`, `INIT`,
  `LDBLK`, `PACK` and `XOUT`. Safe. -/
  | noJob
  /-- A `MemRead` outside its definedness condition (20_memory.md R52), or of an offset the captured descriptor has no
  byte for (log 5). Raised by `INIT`, `LDBLK` and `PACK`. Safe. -/
  | memReadUndefined
  /-- `INIT` with `key_len != 16` (30_encoding.md R79). Safe. -/
  | keyLengthUnchecked
  /-- `LDBLK` with `off + 8 > data_len` (30_encoding.md R79). Safe. -/
  | blockOutOfRange
  /-- `PACK` with `off > data_len` or `data_len - off > 7` (30_encoding.md R79). Safe. -/
  | tailOutOfRange
  /-- `RND` with `rc = 0` (30_encoding.md R79) or with more rounds than the stage's burst has (log 10). Safe. -/
  | roundCount
  /-- `XIN` or `XOUT` with `stg` = FINAL (30_encoding.md R79, 42_compress.md R131 and R132, log 11). Safe. -/
  | stageNotAbsorbing
  /-- `XOUT` with `rc != 0`, which is not enabled (42_compress.md R132, log 11). Safe. -/
  | roundsPending
  deriving DecidableEq, Repr

/-- Why a transaction or an instruction is turned away. -/
inductive Refusal where
  /-- An instruction that has no meaning yet; no arm of `exec` answers it in this model. Safe. -/
  | notModelled (mnemonic : String)
  /-- `SUBMIT` while a job runs: "a model refuses it" (70_reset_and_hazards.md R246). Raised by `submit`. UNSAFE: a
  host that does it on real hardware is outside every claim (log 7). -/
  | submitWhileBusy
  /-- `READ_DIGEST` while `seq` is not DONE: "a model refuses the read" (70_reset_and_hazards.md R248). Raised by
  `readDigest`. Safe (log 8). -/
  | digestNotReady
  /-- `SUBMIT` of a term that is no job descriptor: its bytes are not those its lengths announce (10_state.md R30).
  Raised by `submit`. Safe (log 6). -/
  | notADescriptor
  deriving DecidableEq, Repr

/-- The host's four transactions (10_state.md R20). -/
inductive HostRequest where
  | submit (j : JobDescriptor)
  | readStatus
  | readDigest
  | reset
  deriving DecidableEq, Repr

/-- What a transaction gives back to the host (10_state.md R33: `status`, `cause` and `digest` are the only outputs). -/
inductive HostReply where
  | accepted
  | status (status : BitVec 2) (cause : BitVec 1)
  | digest (d : Word)
  deriving DecidableEq, Repr

/-- Who moves (10_state.md R20): the engine, or the host with a transaction. -/
inductive Move where
  | engine
  | host (r : HostRequest)
  deriving DecidableEq, Repr

/-- The state after reset (10_state.md R39): `seq` is IDLE and no job is captured. R39 leaves every other register
unspecified: DESIGN CHOICE 0 (log 1), unsafe. -/
def State.reset : State where
  v := ⟨0, 0, 0, 0⟩
  m := 0
  digest := 0
  seq := 0x0#4
  stg := 0
  rc := 0
  off := 0
  job := none

end Sys2Proof.Machine
end

