-- ==== Sys2Proof/WellFormed.lean ====
section
/-! DEFINITION. Which written terms the rules give a meaning to. An operation has no operand, so every one is well
formed (30_encoding.md R70, R72); a job descriptor holds exactly the bytes its lengths announce (10_state.md R30). -/

namespace Sys2Proof

/-- OP4 has no register, immediate, mode or length field (30_encoding.md R70): there is nothing to check. -/
abbrev Instr.wf (_ : Instr) : Prop := True

/-- The canonical form of a byte space: offsets strictly rising. What an unlisted offset reads as is "no byte", which
no listed entry can equal. -/
abbrev Memory.wf (mem : Memory) : Prop := mem.Pairwise (fun c d => c.1 < d.1)

/-- A byte space of `n` bytes has exactly the offsets `0 .. n-1`, one byte each (20_memory.md R50, R51). -/
abbrev Memory.covers (mem : Memory) (n : Nat) : Prop := mem.map Prod.fst = List.range n

/-- A job descriptor holds the key bytes `0 .. key_len-1` and the data bytes `0 .. data_len-1` and no others
(10_state.md R30). -/
abbrev JobDescriptor.wf (j : JobDescriptor) : Prop := j.key.covers j.keyLen ∧ j.data.covers j.dataLen

end Sys2Proof
end

