-- ==== Sys2Proof/Machine/Ops.lean ====
section
/-! DEFINITION. The named operations over the byte spaces and the sequencer that the meanings share: byte reads and
`MemRead` (20_memory.md R52), the guards that stop in a state the hardware never reaches, the transfer `seq <- T`
(00_scope.md R11), the block-loop test (46_sequencer.md R191) and the exception entry (60_exceptions.md R213). -/

namespace Sys2Proof

/-- The cells of a byte string laid out from offset `a` on. -/
def Memory.ofBytesFrom (a : Nat) : List Byte → Memory
  | [] => []
  | b :: bs => (a, b) :: Memory.ofBytesFrom (a + 1) bs

/-- The job `SUM64 key=<bytes> data=<bytes>` (30_encoding.md R81): both byte strings in offset order from offset 0. -/
def JobDescriptor.ofBytes (key data : List Byte) : JobDescriptor where
  keyLen := key.length
  key := Memory.ofBytesFrom 0 key
  dataLen := data.length
  data := Memory.ofBytesFrom 0 data

/-- The key bytes of a descriptor, in offset order. -/
def JobDescriptor.keyBytes (j : JobDescriptor) : List Byte := j.key.map Prod.snd

/-- The message bytes of a descriptor, in offset order. -/
def JobDescriptor.dataBytes (j : JobDescriptor) : List Byte := j.data.map Prod.snd
/-- The byte at an offset; an offset that is not listed holds none (log 5). -/
def Memory.read : Memory → Nat → Option Byte
  | [], _ => none
  | (a, b) :: rest, x => if a = x then some b else Memory.read rest x

/-- The `n` bytes at offsets `a, a+1, …, a+n-1`, in increasing offset order. -/
def Memory.readBytes (mem : Memory) : Nat → Nat → Option (List Byte)
  | _, 0 => some []
  | a, n + 1 =>
    match mem.read a, Memory.readBytes mem (a + 1) n with
    | some b, some bs => some (b :: bs)
    | _, _ => none

namespace Machine

/-- The byte space a descriptor presents under a name (20_memory.md R50, R51). -/
def spaceOf (j : JobDescriptor) : Space → Memory
  | .key => j.key
  | .msg => j.data

/-- The length of a byte space: `key_len` or `data_len` (20_memory.md R50, R51). -/
def spaceLen (j : JobDescriptor) : Space → Nat
  | .key => j.keyLen
  | .msg => j.dataLen

/-- `MemRead(S, a, n)` (20_memory.md R52): defined only if `a + n <= length(S)`, computed in naturals. -/
def memRead (j : JobDescriptor) (sp : Space) (a n : Nat) : Option (List Byte) :=
  if a + n ≤ spaceLen j sp then (spaceOf j sp).readBytes a n else none

/-- One byte of a byte space of the captured job, as a state shows it: none where no job is captured, or where the
space has no such offset. -/
def readByte (sp : Space) (a : Nat) (s : State) : Option Byte :=
  match s.job with
  | some j => if a < spaceLen j sp then (spaceOf j sp).read a else none
  | none => none

/-- The result type of a meaning. -/
abbrev Result := Host.Outcome State Fault Refusal

/-- Go on if the condition holds, else stop with the fault. -/
def require (c : Prop) [Decidable c] (f : Fault) (k : Result) : Result :=
  if c then k else .fault f

/-- Go on with the captured job descriptor; with none captured, fault (10_state.md R39, log 14). -/
def withJob (s : State) (k : JobDescriptor → Result) : Result :=
  match s.job with
  | some j => k j
  | none => .fault .noJob

/-- Go on with the bytes of a `MemRead`; where it is undefined, fault (20_memory.md R52, log 5). -/
def withBytes (j : JobDescriptor) (sp : Space) (a n : Nat) (k : List Byte → Result) : Result :=
  match memRead j sp a n with
  | some bs => k bs
  | none => .fault .memReadUndefined

/-- Stage codes (10_state.md R27). -/
abbrev Stage.block : BitVec 2 := 0#2
abbrev Stage.tail : BitVec 2 := 1#2
abbrev Stage.final : BitVec 2 := 2#2
abbrev Stage.reserved : BitVec 2 := 3#2

/-- `seq <- T`: transfer of sequencer control (00_scope.md R11, 10_state.md R26). -/
def goto (i : Instr) (s : State) : State := { s with seq := encode i }

/-- The operation-select code the engine executes next: the content of `seq` (10_state.md R26). There is no
instruction memory and no fetch. -/
def fetch (s : State) : OpCode := s.seq

/-- "Does a further full block remain?" (46_sequencer.md R191): `off + 8 <= data_len` on naturals, no wrap-around
(R197). -/
def blockSuccessor (off dataLen : Nat) : Instr :=
  if off + 8 ≤ dataLen then .ldblk else .pack

/-- The number of rounds in a burst of a stage: four in FINAL, two in BLOCK and TAIL (46_sequencer.md R192). -/
def burstLength (stg : BitVec 2) : BitVec 3 :=
  if stg = Stage.final then Config.dRounds else Config.cRounds

/-- The successor of `RND`, from the value just written to `rc` (45_sipround.md R170, 46_sequencer.md R190). -/
def roundSuccessor (rc' : BitVec 3) (stg : BitVec 2) : Instr :=
  if rc' ≠ 0 then .rnd else if stg = Stage.final then .out else .xout

/-- Taking the one exception: `raise InvalidKeyLength()` is `seq <- ERR` and nothing else (60_exceptions.md R213).
There is no return from it (R217): `ERR` is left by the host's SUBMIT or RESET only. -/
def raiseInvalidKeyLength (s : State) : State := goto .err s

/-- The bytes an operation reads, in the order it reads them (20_memory.md R57). -/
def byteReads (i : Instr) (s : State) : List (Space × Nat) :=
  match i, s.job with
  | .init, some _ => (List.range' 0 8 ++ List.range' 8 8).map (Space.key, ·)
  | .ldblk, some _ => (List.range' s.off 8).map (Space.msg, ·)
  | .pack, some j => (List.range' s.off (j.dataLen - s.off)).map (Space.msg, ·)
  | _, _ => []

end Machine
end Sys2Proof
end

