-- ==== Sys2Proof/Machine/Operands.lean ====
section
/-! DEFINITION. How bytes become words: `LE64` (00_scope.md R11), the formats KEY16, BLOCK8 and MLAST
(30_encoding.md R73, R74, R75). All operands are implicit (R72); these are the only operand forms. -/

namespace Sys2Proof.Machine

/-- `LE64(b0, b1, …)` (00_scope.md R11): byte `i` is zero-extended into bits `8i+7:8i`, the first byte lowest. -/
def le64 : List Byte → Word
  | [] => 0
  | b :: bs => b.setWidth 64 ||| (le64 bs <<< 8)

/-- The length byte `data_len mod 256` in bits 63:56 (30_encoding.md R75, 43_tail.md R150): the low 8 bits of the TOTAL
length, not saturated (R76). -/
def lengthByteWord (dataLen : Nat) : Word := BitVec.ofNat 64 (dataLen % 256) <<< 56

/-- Format MLAST: the length byte with tail byte `i` or-ed into byte `i` (43_tail.md R150). -/
def tailWord (dataLen : Nat) (tail : List Byte) : Word := lengthByteWord dataLen ||| le64 tail

/-- Format BLOCK8: block word `b` of a message, from its bytes `8b .. 8b+7` (30_encoding.md R74, 42_compress.md
R134). -/
def blockWord (data : List Byte) (b : Nat) : Word := le64 ((data.drop (8 * b)).take 8)

/-- `m_last(L, data)` (43_tail.md R151): the tail word of a whole message. -/
def lastWord (data : List Byte) : Word :=
  tailWord data.length (data.drop (8 * (data.length / 8)))

end Sys2Proof.Machine
end

