-- ==== Sys2Proof/Machine/Compress.lean ====
section
/-! DEFINITION. Block ingestion: `LDBLK`, `XIN`, `XOUT` (42_compress.md). -/

namespace Sys2Proof.Machine

/-- `LDBLK` (42_compress.md R130): `m` from the eight message bytes at `off`, then `off + 8`. -/
def execLdblk (s : State) : Result :=
  require (s.stg ≠ Stage.reserved) .reservedStage <|
  withJob s fun j =>
  require (s.off + 8 ≤ j.dataLen) .blockOutOfRange <|
  withBytes j .msg s.off 8 fun bs =>
    .next (goto .xin { s with m := le64 bs, off := s.off + 8 })

/-- `v[3] <- v[3] ^ w`. -/
def Acc.xorV3 (v : Acc) (w : Word) : Acc := { v with v3 := v.v3 ^^^ w }

/-- `v[0] <- v[0] ^ w`. -/
def Acc.xorV0 (v : Acc) (w : Word) : Acc := { v with v0 := v.v0 ^^^ w }

/-- `XIN` (42_compress.md R131), enabled when `stg` is BLOCK or TAIL (log 11). -/
def execXin (s : State) : Result :=
  require (s.stg ≠ Stage.reserved) .reservedStage <|
  require (s.stg ≠ Stage.final) .stageNotAbsorbing <|
    .next (goto .rnd { s with v := s.v.xorV3 s.m, rc := Config.cRounds })

/-- `XOUT` (42_compress.md R132), enabled when `stg` is BLOCK or TAIL and `rc = 0` (log 11). The descriptor is read
only in stage BLOCK (10_state.md R24). -/
def execXout (s : State) : Result :=
  require (s.stg ≠ Stage.reserved) .reservedStage <|
  require (s.stg ≠ Stage.final) .stageNotAbsorbing <|
  require (s.rc = 0) .roundsPending <|
  if s.stg = Stage.block then
    withJob s fun j =>
      .next (goto (blockSuccessor s.off j.dataLen) { s with v := s.v.xorV0 s.m })
  else
    .next (goto .fxor { s with v := s.v.xorV0 s.m })

end Sys2Proof.Machine
end

