-- ==== Sys2Proof/Machine/Finalize.lean ====
section
/-! DEFINITION. Finalisation and output: `FXOR`, `OUT` (44_finalize.md). -/

namespace Sys2Proof.Machine

/-- `v[2] <- v[2] ^ w`. -/
def Acc.xorV2 (v : Acc) (w : Word) : Acc := { v with v2 := v.v2 ^^^ w }

/-- `v[0] ^ v[1] ^ v[2] ^ v[3]` (44_finalize.md R161). -/
def Acc.fold (v : Acc) : Word := v.v0 ^^^ v.v1 ^^^ v.v2 ^^^ v.v3

/-- `FXOR` (44_finalize.md R160). -/
def execFxor (s : State) : Result :=
  require (s.stg ≠ Stage.reserved) .reservedStage <|
    .next (goto .rnd
      { s with v := s.v.xorV2 Config.finalConst, stg := Stage.final, rc := Config.dRounds })

/-- `OUT` (44_finalize.md R161). -/
def execOut (s : State) : Result :=
  require (s.stg ≠ Stage.reserved) .reservedStage <|
    .next (goto .done { s with digest := s.v.fold })

end Sys2Proof.Machine
end

