-- ==== Sys2Proof/Machine/Init.lean ====
section
/-! DEFINITION. Initialisation of the state accumulator (41_init.md). -/

namespace Sys2Proof.Machine

/-- The accumulator from the constants and the two key words: `k0` into the even words, `k1` into the odd ones
(41_init.md R120). -/
def initAcc (c : InitConstants) (k0 k1 : Word) : Acc :=
  ⟨c.iv0 ^^^ k0, c.iv1 ^^^ k1, c.iv2 ^^^ k0, c.iv3 ^^^ k1⟩

/-- `INIT` (41_init.md R120). With `key_len != 16` it faults (30_encoding.md R79, 41_init.md R121), and
with the reserved stage, though it overwrites it (R78). -/
def execInit (s : State) : Result :=
  require (s.stg ≠ Stage.reserved) .reservedStage <|
  withJob s fun j =>
  require (j.keyLen = 16) .keyLengthUnchecked <|
  withBytes j .key 0 8 fun b0 =>
  withBytes j .key 8 8 fun b1 =>
    .next (goto (blockSuccessor 0 j.dataLen)
      { s with
        v := initAcc Config.initConstants (le64 b0) (le64 b1)
        off := 0
        stg := Stage.block })

end Sys2Proof.Machine
end

