-- ==== Sys2Proof/Machine/JobControl.lean ====
section
/-! DEFINITION. The key-length check and the quiescent codes (40_job_control.md). They read no stage, and still stop in a
state that holds the reserved one, which has no step whatever `seq` is (30_encoding.md R78). -/

namespace Sys2Proof.Machine

/-- `KCHK` (40_job_control.md R104): `INIT` follows if `key_len = 16`, else InvalidKeyLength is raised
(60_exceptions.md R211, R213). The whole length is compared; no byte of KEY or MSG is read. -/
def execKchk (s : State) : Result :=
  require (s.stg ≠ Stage.reserved) .reservedStage <|
  withJob s fun j =>
    if j.keyLen = 16 then .next (goto .init s) else .next (raiseInvalidKeyLength s)

/-- `IDLE` (40_job_control.md R105): the engine does nothing (R108). DESIGN CHOICE (log 3): doing nothing is the step
that leaves the state as it is. -/
def execIdle (s : State) : Result :=
  require (s.stg ≠ Stage.reserved) .reservedStage <| .next s

/-- `DONE` (40_job_control.md R106): the engine does nothing (R108), as for `IDLE` (log 3). -/
def execDone (s : State) : Result :=
  require (s.stg ≠ Stage.reserved) .reservedStage <| .next s

/-- `ERR` (40_job_control.md R107): the engine does nothing, it does not retry (R108, 60_exceptions.md R217), as for
`IDLE` (log 3). -/
def execErr (s : State) : Result :=
  require (s.stg ≠ Stage.reserved) .reservedStage <| .next s

end Sys2Proof.Machine
end

