-- ==== Sys2Proof/Machine/SipRound.lean ====
section
/-! DEFINITION. The round-function pipe: SipRound, its inverse, and the operation `RND` (45_sipround.md). -/

namespace Sys2Proof.Machine

/-- 64-bit circular left rotation, `0 < n < 64` (00_scope.md R11, 45_sipround.md R177). -/
def rotl64 (x : Word) (n : Nat) : Word := (x <<< n) ||| (x >>> (64 - n))

/-- SipRound: the fourteen assignments of 45_sipround.md R171, in that order, each seeing those before it. -/
def sipRound (v : Acc) : Acc :=
  let v0 := v.v0 + v.v1       -- s1
  let v2 := v.v2 + v.v3       -- s2
  let v1 := rotl64 v.v1 13    -- s3
  let v3 := rotl64 v.v3 16    -- s4
  let v1 := v1 ^^^ v0         -- s5
  let v3 := v3 ^^^ v2         -- s6
  let v0 := rotl64 v0 32      -- s7
  let v2 := v2 + v1           -- s8
  let v0 := v0 + v3           -- s9
  let v1 := rotl64 v1 17      -- s10
  let v3 := rotl64 v3 21      -- s11
  let v1 := v1 ^^^ v2         -- s12
  let v3 := v3 ^^^ v0         -- s13
  let v2 := rotl64 v2 32      -- s14
  ⟨v0, v1, v2, v3⟩

/-- The fourteen inverse steps in reverse order (45_sipround.md R174). No operation of the hardware applies it. -/
def sipRoundInv (v : Acc) : Acc :=
  let v2 := rotl64 v.v2 32    -- s14
  let v3 := v.v3 ^^^ v.v0     -- s13
  let v1 := v.v1 ^^^ v2       -- s12
  let v3 := rotl64 v3 43      -- s11
  let v1 := rotl64 v1 47      -- s10
  let v0 := v.v0 - v3         -- s9
  let v2 := v2 - v1           -- s8
  let v0 := rotl64 v0 32      -- s7
  let v3 := v3 ^^^ v2         -- s6
  let v1 := v1 ^^^ v0         -- s5
  let v3 := rotl64 v3 48      -- s4
  let v1 := rotl64 v1 51      -- s3
  let v2 := v2 - v3           -- s2
  let v0 := v0 - v1           -- s1
  ⟨v0, v1, v2, v3⟩

/-- `n` successive SipRounds (44_finalize.md R162). -/
def sipRounds : Nat → Acc → Acc
  | 0, v => v
  | n + 1, v => sipRounds n (sipRound v)

/-- `RND` (45_sipround.md R170): one SipRound on `v` and one count of `rc`. It faults with `rc = 0` (30_encoding.md
R79) and with more rounds left than the stage's burst has (95_test_vectors.md section 2.6, log 10). -/
def execRnd (s : State) : Result :=
  require (s.stg ≠ Stage.reserved) .reservedStage <|
  require (s.rc ≠ 0 ∧ s.rc ≤ burstLength s.stg) .roundCount <|
    .next (goto (roundSuccessor (s.rc - 1) s.stg) { s with v := sipRound s.v, rc := s.rc - 1 })

end Sys2Proof.Machine
end

