-- ==== Sys2Proof/Machine/Tail.lean ====
section
/-! DEFINITION. The tail-byte packer (43_tail.md). -/

namespace Sys2Proof.Machine

/-- `PACK` (43_tail.md R150): `m` from the `data_len - off` tail bytes and the length byte. -/
def execPack (s : State) : Result :=
  require (s.stg ≠ Stage.reserved) .reservedStage <|
  withJob s fun j =>
  require (s.off ≤ j.dataLen ∧ j.dataLen - s.off ≤ 7) .tailOutOfRange <|
  withBytes j .msg s.off (j.dataLen - s.off) fun tail =>
    .next (goto .xin
      { s with m := tailWord j.dataLen tail, off := j.dataLen, stg := Stage.tail })

end Sys2Proof.Machine
end

