-- ==== Sys2Proof/Machine/Dispatch.lean ====
section
/-! DEFINITION. The meaning of every operation, one arm per row of the operation map (30_encoding.md R71). -/

namespace Sys2Proof.Machine

def exec (i : Instr) (s : State) : Host.Outcome State Fault Refusal :=
  match i with
  | .idle => Sys2Proof.Machine.execIdle s
  | .kchk => Sys2Proof.Machine.execKchk s
  | .init => Sys2Proof.Machine.execInit s
  | .ldblk => Sys2Proof.Machine.execLdblk s
  | .pack => Sys2Proof.Machine.execPack s
  | .xin => Sys2Proof.Machine.execXin s
  | .rnd => Sys2Proof.Machine.execRnd s
  | .xout => Sys2Proof.Machine.execXout s
  | .fxor => Sys2Proof.Machine.execFxor s
  | .out => Sys2Proof.Machine.execOut s
  | .done => Sys2Proof.Machine.execDone s
  | .err => Sys2Proof.Machine.execErr s

end Sys2Proof.Machine
end

