-- ==== Sys2Proof/Machine/Load.lean ====
section
/-! DEFINITION. Placing an operation as the next one to run, for a caller that wants to see one operation run from a
given state (log 16). The hardware has no program memory: what selects an operation is the control tuple `seq`, `stg`,
`rc`, `off`, and what it works on is the job. -/

namespace Sys2Proof.Machine

/-- The operation goes on from this state. -/
def completes (i : Instr) (s : State) : Bool :=
  match exec i s with
  | .next _ => true
  | _ => false

/-- A job with one full block and no tail: a 16-byte key and an 8-byte message, all bytes zero (log 16). -/
def placedJob : JobDescriptor := JobDescriptor.ofBytes (List.replicate 16 0) (List.replicate 8 0)

/-- The state with a control tuple and a job in which the operation is enabled. Where the operation goes on from the
state as it is, nothing is changed. -/
def placeFor (i : Instr) (s : State) : State :=
  if completes i s then s
  else match i with
    | .idle | .done | .err => { s with stg := Stage.block }
    | .kchk | .init => { s with job := some placedJob, stg := Stage.block }
    | .ldblk => { s with job := some placedJob, stg := Stage.block, off := 0 }
    | .pack | .xin => { s with job := some placedJob, stg := Stage.block, off := 8 }
    | .rnd => { s with job := some placedJob, stg := Stage.block, off := 8, rc := Config.cRounds }
    | .xout => { s with job := some placedJob, stg := Stage.block, off := 8, rc := 0 }
    | .fxor => { s with job := some placedJob, stg := Stage.tail, off := 8, rc := 0 }
    | .out => { s with job := some placedJob, stg := Stage.final, off := 8, rc := 0 }

end Sys2Proof.Machine
end

