-- ==== Sys2Proof/Machine/Step.lean ====
section
/-! DEFINITION. One step of the engine (40_job_control.md R108). -/

namespace Sys2Proof.Machine

/-- The engine executes the operation whose code `seq` holds (40_job_control.md R108); a reserved code is a fault
(30_encoding.md R78). -/
def step (s : State) : Host.Outcome State Fault Refusal :=
  match decode (fetch s) with
  | .ok i => exec i s
  | .error _ => .fault .reservedSeq

/-- `s` with the operation of a table word selected as the next one to run (log 16): `seq` takes the word's code, and
where the operation is not enabled in `s`, the rest of the control tuple and the job are placed so that it is. -/
def State.withFetchWord (s : State) (nbits w : Nat) : State :=
  match decodeTableWord nbits w with
  | some i => placeFor i { s with seq := tableCode w }
  | none => { s with seq := tableCode w }

end Sys2Proof.Machine
end

