-- ==== Sys2Proof/Machine/Flags.lean ====
section
/-! DEFINITION. The status signals, all decodes of `seq` and no storage of their own (10_state.md R31, R32, R33). The
hardware has no arithmetic flag (R31). -/

namespace Sys2Proof.Machine

/-- `busy`: a job is running (10_state.md R31). -/
def busy (s : State) : Bool := 0x1#4 ≤ s.seq && s.seq ≤ 0x9#4

/-- `done`: the last job finished and `digest` is valid (10_state.md R31). -/
def doneFlag (s : State) : Bool := s.seq == 0xA#4

/-- `err`: the last job failed with InvalidKeyLength (10_state.md R31). -/
def errFlag (s : State) : Bool := s.seq == 0xB#4

/-- `idle`: after reset, no job yet (10_state.md R31). -/
def idleFlag (s : State) : Bool := s.seq == 0x0#4

/-- The engine has no enabled step and the host may submit (00_scope.md R14, 40_job_control.md R100). -/
def quiescent (s : State) : Bool := idleFlag s || doneFlag s || errFlag s

/-- `seq` holds one of the reserved codes (30_encoding.md R78). -/
def reservedSeq (s : State) : Bool := 0xC#4 ≤ s.seq

/-- `stg` holds the reserved code (30_encoding.md R78). -/
def reservedStg (s : State) : Bool := s.stg == 0x3#2

/-- `cause` (10_state.md R32): 1 exactly in ERR. -/
def cause (s : State) : BitVec 1 := if errFlag s then 1#1 else 0#1

/-- `status` (30_encoding.md R77, 40_job_control.md R102): 0 IDLE, 1 BUSY, 2 DONE, 3 ERROR. Used on the twelve named
codes only: `readStatus` faults on the others. -/
def status (s : State) : BitVec 2 :=
  if idleFlag s then 0#2 else if doneFlag s then 2#2 else if errFlag s then 3#2 else 1#2

end Sys2Proof.Machine
end

