-- ==== Sys2Proof/Machine/HostPort.lean ====
section
/-! DEFINITION. The host's four transactions (40_job_control.md R100, R102, R103; 70_reset_and_hazards.md R240). In a
state with a reserved `seq` or `stg` code (30_encoding.md R78) the first three fault and RESET is accepted (R240,
95_test_vectors.md section 2.10, log 12, log 21). -/

namespace Sys2Proof.Machine

/-- Go on if the state holds no reserved code; else fault (30_encoding.md R78). -/
def whenNamed {α : Type} (s : State) (k : Host.Outcome α Fault Refusal) : Host.Outcome α Fault Refusal :=
  if reservedSeq s then .fault .reservedSeq
  else if reservedStg s then .fault .reservedStage
  else k

/-- `SUBMIT(J)` (40_job_control.md R100): in a quiescent state `job <- J; seq <- KCHK` and nothing else. While BUSY it is
refused (70_reset_and_hazards.md R246, log 7). A term that is no job descriptor is refused (log 6). -/
def submit (j : JobDescriptor) (s : State) : Result :=
  whenNamed s <|
  if busy s then .refused .submitWhileBusy
  else if j.wf then .next (goto .kchk { s with job := some j })
  else .refused .notADescriptor

/-- `READ_STATUS` (40_job_control.md R102): the pair (status, cause); no side effect. -/
def readStatus (s : State) : Host.Outcome (BitVec 2 × BitVec 1) Fault Refusal :=
  whenNamed s <| .next (status s, cause s)

/-- `READ_DIGEST` (40_job_control.md R103): `digest` when `seq` is DONE; refused otherwise (70_reset_and_hazards.md
R248, log 8); no side effect. -/
def readDigest (s : State) : Host.Outcome Word Fault Refusal :=
  whenNamed s <|
  if doneFlag s then .next s.digest
  else .refused .digestNotReady

/-- `RESET` (70_reset_and_hazards.md R240, R241): accepted in every state, reserved codes included. The registers R240
leaves unspecified take their reset values (DESIGN CHOICE, log 2). -/
def hostReset (_ : State) : State := State.reset

/-- One host transaction: the state after it and what the host gets back. -/
def hostStep (r : HostRequest) (s : State) : Host.Outcome (State × HostReply) Fault Refusal :=
  match r with
  | .submit j =>
    match submit j s with
    | .next t => .next (t, .accepted)
    | .fault f => .fault f
    | .refused e => .refused e
  | .readStatus =>
    match readStatus s with
    | .next (st, c) => .next (s, .status st c)
    | .fault f => .fault f
    | .refused e => .refused e
  | .readDigest =>
    match readDigest s with
    | .next d => .next (s, .digest d)
    | .fault f => .fault f
    | .refused e => .refused e
  | .reset => .next (hostReset s, .accepted)

end Sys2Proof.Machine
end

