-- ==== Sys2Proof/Machine/Sequencer.lean ====
section
/-! DEFINITION. What a whole job computes, as functions of the key and the message (42_compress.md R133, 44_finalize.md
R162, 46_sequencer.md R199); the pseudo-operations (30_encoding.md R82); and the two agents together (10_state.md R20).
-/

namespace Sys2Proof.Machine

/-- `compress(v, w)` (42_compress.md R133): exclusive-or into `v3`, two SipRounds, exclusive-or into `v0`. -/
def compress (v : Acc) (w : Word) : Acc := (sipRounds 2 (v.xorV3 w)).xorV0 w

/-- `finalize(v)` (44_finalize.md R162). -/
def finalize (v : Acc) : Word := (sipRounds 4 (v.xorV2 Config.finalConst)).fold

/-- The accumulator `INIT` leaves for a key (41_init.md R120, 30_encoding.md R73). -/
def keyedAcc (key : List Byte) : Acc :=
  initAcc Config.initConstants (le64 (key.take 8)) (le64 ((key.drop 8).take 8))

/-- The accumulator after the full blocks `0 .. n-1`, absorbed in increasing order (42_compress.md R134). -/
def absorbBlocks (data : List Byte) (v : Acc) : Nat → Acc
  | 0 => v
  | n + 1 => compress (absorbBlocks data v n) (blockWord data n)

/-- The accumulator after every full block. -/
def absorbFull (key data : List Byte) : Acc :=
  absorbBlocks data (keyedAcc key) (data.length / 8)

/-- The accumulator after every full block and the tail word. -/
def absorbAll (key data : List Byte) : Acc :=
  compress (absorbFull key data) (lastWord data)

/-- `sum64(key, data)` (46_sequencer.md R199): a digest for a key of exactly 16 bytes, no value for any other. -/
def sum64 (key data : List Byte) : Option Word :=
  if key.length = 16 then some (finalize (absorbAll key data)) else none

/-- The pseudo-operations (30_encoding.md R82). -/
def compressOps : List Instr := [.xin, .rnd, .rnd, .xout]
def absorbOps : List Instr := .ldblk :: compressOps
def tailOps : List Instr := .pack :: compressOps
def finalizeOps : List Instr := [.fxor, .rnd, .rnd, .rnd, .rnd, .out]

/-- `ABSORB` repeated `nb` times. -/
def absorbOpsTimes : Nat → List Instr
  | 0 => []
  | nb + 1 => absorbOps ++ absorbOpsTimes nb

/-- `SUM64` (30_encoding.md R82): a function of the two lengths alone (46_sequencer.md R191). -/
def sum64Ops (keyLen dataLen : Nat) : List Instr :=
  if keyLen = 16 then
    [.kchk, .init] ++ absorbOpsTimes (dataLen / 8) ++ tailOps ++ finalizeOps
  else [.kchk]

/-- `n` steps of the engine, with no host transaction between them. -/
def runEngine : Nat → State → Result
  | 0, s => .next s
  | n + 1, s =>
    match step s with
    | .next t => runEngine n t
    | .fault f => .fault f
    | .refused e => .refused e

/-- The trace of the engine's next `n` steps: the operations it executes, in order (30_encoding.md R81). -/
def trace : Nat → State → List Instr
  | 0, _ => []
  | n + 1, s =>
    match decode (fetch s), step s with
    | .ok i, .next t => i :: trace n t
    | _, _ => []

/-- The bytes the engine reads in its next `n` steps, in order (20_memory.md R57). -/
def bytesRead : Nat → State → List (Space × Nat)
  | 0, _ => []
  | n + 1, s =>
    match decode (fetch s), step s with
    | .ok i, .next t => byteReads i s ++ bytesRead n t
    | _, _ => []

/-- One move of one of the two agents (10_state.md R20): the state after it. Who moves is the caller's choice
(log 18). -/
def act (mv : Move) (s : State) : Result :=
  match mv with
  | .engine => step s
  | .host r =>
    match hostStep r s with
    | .next (t, _) => .next t
    | .fault f => .fault f
    | .refused e => .refused e

/-- A list of moves, one after another. -/
def runMoves : List Move → State → Result
  | [], s => .next s
  | mv :: rest, s =>
    match act mv s with
    | .next t => runMoves rest t
    | .fault f => .fault f
    | .refused e => .refused e

end Sys2Proof.Machine
end

