-- ==== Sys2Proof/Safety.lean ====
section
/-! DEFINITION. What holds of every state the block reaches: the control invariant (46_sequencer.md R196 items 1 to 8,
with what makes it inductive) and the data invariant (items 9 and 10, likewise). -/

namespace Sys2Proof.Machine

/-- `seq` holds this operation's code. -/
abbrev State.atOp (s : State) (i : Instr) : Prop := s.seq = encode i

/-- The control invariant. Its clauses `named` to `outFinal` are items 1 to 8 of 46_sequencer.md R196, but for
`stageNamed`, which 30_encoding.md R78 asks of every state and item 1 of some; `descriptor`, `held`, `blockRead`,
`absorbing`, `armedFinal`, `doneKey` and `errKey` are what R196's induction also needs, from 10_state.md R30,
40_job_control.md R100, R106, R107, 42_compress.md R131 and 44_finalize.md R160. -/
structure ControlInv (s : State) : Prop where
  named : s.seq ≤ 0xB#4
  stageNamed : s.stg ≠ Stage.reserved
  keyChecked : ∀ j, s.job = some j → 0x2#4 ≤ s.seq → s.seq ≤ 0x9#4 → j.keyLen = 16
  blockOffset : ∀ j, s.job = some j → 0x3#4 ≤ s.seq → s.seq ≤ 0x9#4 → s.stg = Stage.block →
    s.off % 8 = 0 ∧ s.off ≤ j.dataLen
  loadInRange : ∀ j, s.job = some j → s.atOp .ldblk → s.stg = Stage.block ∧ s.off + 8 ≤ j.dataLen
  packAtHead : ∀ j, s.job = some j → s.atOp .pack →
    s.stg = Stage.block ∧ s.off = 8 * (j.dataLen / 8) ∧ j.dataLen - s.off ≤ 7
  consumed : ∀ j, s.job = some j → 0x5#4 ≤ s.seq → s.seq ≤ 0x9#4 →
    s.stg = Stage.tail ∨ s.stg = Stage.final → s.off = j.dataLen
  roundsLeft : s.atOp .rnd → s.rc ≠ 0 ∧ s.rc ≤ burstLength s.stg
  xoutArmed : s.atOp .xout → s.rc = 0 ∧ (s.stg = Stage.block ∨ s.stg = Stage.tail)
  outFinal : s.atOp .out → s.rc = 0 ∧ s.stg = Stage.final
  descriptor : ∀ j, s.job = some j → j.wf
  held : s.seq ≠ encode .idle → s.job.isSome
  blockRead : 0x5#4 ≤ s.seq → s.seq ≤ 0x7#4 → s.stg = Stage.block → 8 ≤ s.off
  absorbing : s.atOp .xin → s.stg = Stage.block ∨ s.stg = Stage.tail
  armedFinal : s.atOp .fxor → s.stg = Stage.tail
  doneKey : ∀ j, s.job = some j → s.atOp .done → j.keyLen = 16
  errKey : ∀ j, s.job = some j → s.atOp .err → j.keyLen ≠ 16

/-- The word the stage absorbs: the block before `off` in stage BLOCK, the tail word after it. -/
def stageWord (data : List Byte) (s : State) : Word :=
  if s.stg = Stage.block then blockWord data (s.off / 8 - 1) else lastWord data

/-- The accumulator as the stage's bracket found it: before its block in stage BLOCK, before the tail word in stage
TAIL, before the finalisation constant in stage FINAL. -/
def stageAcc (key data : List Byte) (s : State) : Acc :=
  if s.stg = Stage.block then absorbBlocks data (keyedAcc key) (s.off / 8 - 1)
  else if s.stg = Stage.tail then absorbFull key data
  else absorbAll key data

/-- The accumulator as the first round of the stage's burst takes it. -/
def armedAcc (key data : List Byte) (s : State) : Acc :=
  if s.stg = Stage.final then (stageAcc key data s).xorV2 Config.finalConst
  else (stageAcc key data s).xorV3 (stageWord data s)

/-- The data invariant of a job: where the job stands in the algorithm, the accumulator is the partial result of `sum64`
for its key and message, `m` is the word being absorbed (46_sequencer.md R196 item 9), and in DONE the digest is
`sum64` (item 10). -/
structure DataInvFor (key data : List Byte) (s : State) : Prop where
  beforeBlock : s.atOp .ldblk ∨ s.atOp .pack →
    s.v = absorbBlocks data (keyedAcc key) (s.off / 8)
  beforeXin : s.atOp .xin → s.v = stageAcc key data s ∧ s.m = stageWord data s
  inBurst : s.atOp .rnd → s.v = sipRounds (burstLength s.stg - s.rc).toNat (armedAcc key data s)
  heldWord : s.atOp .rnd ∨ s.atOp .xout → s.stg ≠ Stage.final → s.m = stageWord data s
  beforeXout : s.atOp .xout → s.v = sipRounds 2 (armedAcc key data s)
  beforeFxor : s.atOp .fxor → s.v = absorbAll key data
  beforeOut : s.atOp .out → s.v = sipRounds 4 (armedAcc key data s)
  result : s.atOp .done → sum64 key data = some s.digest

/-- The data invariant: for the captured job, if there is one. -/
def DataInv (s : State) : Prop :=
  ∀ j, s.job = some j → DataInvFor j.keyBytes j.dataBytes s

/-- What every reachable state satisfies (46_sequencer.md R196). -/
structure Inv (s : State) : Prop where
  control : ControlInv s
  data : DataInv s

end Sys2Proof.Machine
end

