-- ==== Sys2Proof/Certificates/Slice0/Obligations.lean ====
section
/-! DEFINITION. The statements about the model, one `def Obligations.<Name> : Prop` each, with the rule of spec/ each
formalises. `seq` codes are written as the numbers of 30_encoding.md R71, stages as those of R77. -/

open Sys2Proof Sys2Proof.Machine

/-! ## Codes and the step -/

/-- 30_encoding.md R71 and R78: the sixteen codes, each decoded as the operation map says or rejected by name. -/
def Obligations.OperationCodesDecodeAsMapped : Prop :=
  (decode 0x0#4 = .ok .idle ∧ decode 0x1#4 = .ok .kchk ∧ decode 0x2#4 = .ok .init ∧
    decode 0x3#4 = .ok .ldblk ∧ decode 0x4#4 = .ok .pack ∧ decode 0x5#4 = .ok .xin ∧
    decode 0x6#4 = .ok .rnd ∧ decode 0x7#4 = .ok .xout ∧ decode 0x8#4 = .ok .fxor ∧
    decode 0x9#4 = .ok .out ∧ decode 0xA#4 = .ok .done ∧ decode 0xB#4 = .ok .err) ∧
  ∀ c : OpCode, 0xC#4 ≤ c → decode c = .error (.reserved c)

/-- 30_encoding.md R70, R71: decoder and encoder are inverse to each other on the twelve operations and their codes. -/
def Obligations.DecodeInvertsEncode : Prop :=
  (∀ i : Instr, decode (encode i) = .ok i) ∧
  ∀ (c : OpCode) (i : Instr), decode c = .ok i → encode i = c

/-- 40_job_control.md R108: a step is the meaning of the operation whose code `seq` holds. Nothing stands around it:
there is no fetch, no program counter to advance and no delay slot (10_state.md R26, 70_reset_and_hazards.md R245). -/
def Obligations.StepRunsTheOperationInSeq : Prop :=
  ∀ (s : State) (i : Instr), decode s.seq = .ok i → i.wf → step s = exec i s

/-- 30_encoding.md R78 with 95_test_vectors.md section 2.10 (log 21): with a reserved code in `seq` the engine faults, and
so do SUBMIT, READ_STATUS and READ_DIGEST; RESET is accepted and sets `seq` to IDLE, with no job (70_reset_and_hazards.md
R240). Nothing is said of the registers RESET leaves unspecified. -/
def Obligations.ReservedSeqCodeFaults : Prop :=
  ∀ s : State, 0xC#4 ≤ s.seq →
    step s = .fault .reservedSeq ∧ (∀ j, submit j s = .fault .reservedSeq) ∧
    readStatus s = .fault .reservedSeq ∧ readDigest s = .fault .reservedSeq ∧
    ∃ t, hostStep .reset s = .next (t, .accepted) ∧ t.seq = 0x0#4 ∧ t.job = none

/-- The model's choice for a quiescent engine (log 3, DESIGN CHOICE; 40_job_control.md R105, R106, R107, R108: "the engine
does nothing"): its step leaves the state as it is. With the reserved stage it faults (ReservedStageFaults). -/
def Obligations.QuiescentCodesChangeNothing : Prop :=
  ∀ s : State, s.stg ≠ 3#2 → exec .idle s = .next s ∧ exec .done s = .next s ∧ exec .err s = .next s

/-- The model's choice (log 16): every operation can be placed as the next one from every state, and the next step
runs exactly it and goes on. -/
def Obligations.PlacedOperationIsRunNext : Prop :=
  ∀ (s : State) (i : Instr) (nbits : Nat), 4 ≤ nbits →
    ∃ t, exec i (s.withFetchWord nbits (encode i).toNat) = .next t ∧
      step (s.withFetchWord nbits (encode i).toNat) = .next t

/-! ## What each operation does, and where it goes on -/

/-- 40_job_control.md R104 and 60_exceptions.md R213: `KCHK` goes to `INIT` for a key length of 16; for every other length
it raises InvalidKeyLength, whose whole effect is `seq <- ERR`, so that `status` is 3, `cause` 1, `err` holds, `busy` and
`done` do not, and no digest is readable. It reads no byte of either space. -/
def Obligations.KchkChecksTheKeyLength : Prop :=
  ∀ (s : State) (j : JobDescriptor), s.job = some j → s.stg ≠ 3#2 →
    (j.keyLen = 16 → exec .kchk s = .next { s with seq := 0x2#4 }) ∧
    (j.keyLen ≠ 16 → ∃ t, exec .kchk s = .next t ∧ t = { s with seq := 0xB#4 } ∧
      readStatus t = .next (3#2, 1#1) ∧ errFlag t = true ∧ busy t = false ∧ doneFlag t = false ∧
      readDigest t = .refused .digestNotReady) ∧
    byteReads .kchk s = []

/-- The four initialisation constants as 00_scope.md R8 fixes them (90_conflicts.md C1; log 15, PRESUMED): the one statement
about their numbers; every other one speaks of the configuration record. -/
def Obligations.InitialisationConstantsAreThoseOfTheScope : Prop :=
  Config.initConstants =
    ⟨0x736f6d6570736575#64, 0x646f72616e646f6d#64, 0x6c7967656e657261#64, 0x7465646279746573#64⟩

/-- 41_init.md R120: the accumulator from the constants and the two key words, `off` 0, `stg` BLOCK, and the successor by
`8 <= data_len`; nothing else changes. -/
def Obligations.InitLoadsTheAccumulator : Prop :=
  ∀ (s : State) (j : JobDescriptor), s.job = some j → j.wf → j.keyLen = 16 → s.stg ≠ 3#2 →
    exec .init s = .next { s with
      v := ⟨Config.initConstants.iv0 ^^^ le64 (j.keyBytes.take 8),
            Config.initConstants.iv1 ^^^ le64 ((j.keyBytes.drop 8).take 8),
            Config.initConstants.iv2 ^^^ le64 (j.keyBytes.take 8),
            Config.initConstants.iv3 ^^^ le64 ((j.keyBytes.drop 8).take 8)⟩
      off := 0
      stg := 0#2
      seq := if 8 ≤ j.dataLen then 0x3#4 else 0x4#4 }

/-- 42_compress.md R130: `m` from the eight message bytes at `off`, `off + 8`, then `XIN`; nothing else changes. -/
def Obligations.LdblkLoadsTheNextBlock : Prop :=
  ∀ (s : State) (j : JobDescriptor), s.job = some j → j.wf → s.stg ≠ 3#2 →
    s.off + 8 ≤ j.dataLen →
    exec .ldblk s = .next { s with
      m := le64 ((j.dataBytes.drop s.off).take 8)
      off := s.off + 8
      seq := 0x5#4 }

/-- 43_tail.md R150: `m` from the length byte and the bytes from `off` on, `off` = `data_len`, `stg` TAIL, then `XIN`;
nothing else changes. -/
def Obligations.PackBuildsTheTailWord : Prop :=
  ∀ (s : State) (j : JobDescriptor), s.job = some j → j.wf → s.stg ≠ 3#2 →
    s.off ≤ j.dataLen → j.dataLen - s.off ≤ 7 →
    exec .pack s = .next { s with
      m := (BitVec.ofNat 64 (j.dataLen % 256) <<< 56) ||| le64 (j.dataBytes.drop s.off)
      off := j.dataLen
      stg := 1#2
      seq := 0x5#4 }

/-- 42_compress.md R131: with `stg` BLOCK or TAIL, `v3 ^ m`, `rc` 2, then `RND`; nothing else changes. -/
def Obligations.XinXorsIntoV3AndArmsTwoRounds : Prop :=
  ∀ s : State, s.stg = 0#2 ∨ s.stg = 1#2 →
    exec .xin s = .next { s with
      v := ⟨s.v.v0, s.v.v1, s.v.v2, s.v.v3 ^^^ s.m⟩
      rc := 2#3
      seq := 0x6#4 }

/-- 45_sipround.md R170: for every round count the stage's burst can have, one SipRound on the accumulator, `rc - 1`, and
the successor by the new `rc` and the stage; nothing else changes. -/
def Obligations.RndRunsOneRound : Prop :=
  ∀ s : State,
    ((s.stg = 0#2 ∨ s.stg = 1#2) ∧ (s.rc = 1#3 ∨ s.rc = 2#3)) ∨
      (s.stg = 2#2 ∧ (s.rc = 1#3 ∨ s.rc = 2#3 ∨ s.rc = 3#3 ∨ s.rc = 4#3)) →
    exec .rnd s = .next { s with
      v := sipRound s.v
      rc := s.rc - 1#3
      seq := if s.rc = 1#3 then (if s.stg = 2#2 then 0x9#4 else 0x7#4) else 0x6#4 }

/-- 42_compress.md R132: with `rc = 0`, `v0 ^ m` and the successor: in stage BLOCK `LDBLK` if a further full block remains,
else `PACK`; in stage TAIL `FXOR`; nothing else changes. In any other stage it faults. -/
def Obligations.XoutXorsIntoV0AndChoosesTheSuccessor : Prop :=
  ∀ s : State, s.rc = 0#3 →
    (∀ j, s.stg = 0#2 → s.job = some j →
      exec .xout s = .next { s with
        v := ⟨s.v.v0 ^^^ s.m, s.v.v1, s.v.v2, s.v.v3⟩
        seq := if s.off + 8 ≤ j.dataLen then 0x3#4 else 0x4#4 }) ∧
    (s.stg = 1#2 →
      exec .xout s = .next { s with
        v := ⟨s.v.v0 ^^^ s.m, s.v.v1, s.v.v2, s.v.v3⟩
        seq := 0x8#4 }) ∧
    (s.stg ≠ 0#2 → s.stg ≠ 1#2 → ∃ f, exec .xout s = .fault f)

/-- 44_finalize.md R160: `v2 ^ 0xff`, `stg` FINAL, `rc` 4, then `RND`; nothing else changes. -/
def Obligations.FxorXorsIntoV2AndArmsFourRounds : Prop :=
  ∀ s : State, s.stg ≠ 3#2 →
    exec .fxor s = .next { s with
      v := ⟨s.v.v0, s.v.v1, s.v.v2 ^^^ 0x00000000000000ff#64, s.v.v3⟩
      stg := 2#2
      rc := 4#3
      seq := 0x6#4 }

/-- 44_finalize.md R161: `digest` is the exclusive-or of the four words, then `DONE`; nothing else changes. -/
def Obligations.OutFoldsTheDigest : Prop :=
  ∀ s : State, s.stg ≠ 3#2 →
    exec .out s = .next { s with
      digest := s.v.v0 ^^^ s.v.v1 ^^^ s.v.v2 ^^^ s.v.v3
      seq := 0xA#4 }

/-! ## Data formats and the round function -/

/-- 30_encoding.md R73: after `INIT`, byte `i` of `k0` is `KEY[i]` and byte `i` of `k1` is `KEY[8+i]`, where `k0` is what
was exclusive-ored with IV0 and IV2 and `k1` what was exclusive-ored with IV1 and IV3. -/
def Obligations.KeyWordsTakeKeyBytesLittleEndian : Prop :=
  ∀ (s t : State) (j : JobDescriptor), s.job = some j → j.wf → exec .init s = .next t →
    ∀ i < 8,
      readByte .key i s =
        some ((t.v.v0 ^^^ Config.initConstants.iv0).extractLsb' (8 * i) 8) ∧
      readByte .key i s =
        some ((t.v.v2 ^^^ Config.initConstants.iv2).extractLsb' (8 * i) 8) ∧
      readByte .key (8 + i) s =
        some ((t.v.v1 ^^^ Config.initConstants.iv1).extractLsb' (8 * i) 8) ∧
      readByte .key (8 + i) s =
        some ((t.v.v3 ^^^ Config.initConstants.iv3).extractLsb' (8 * i) 8)

/-- 30_encoding.md R74: after `LDBLK`, `m[8i+7:8i] = MSG[o+i]` for `i` in 0..7, where `o` is `off` before. -/
def Obligations.BlockWordTakesMessageBytesLittleEndian : Prop :=
  ∀ (s t : State) (j : JobDescriptor), s.job = some j → j.wf → exec .ldblk s = .next t →
    ∀ i < 8, readByte .msg (s.off + i) s = some (t.m.extractLsb' (8 * i) 8)

/-- 30_encoding.md R75: after `PACK` from `off` = `head`, byte 7 of `m` is `data_len mod 256`, byte `i` is `MSG[head+i]` for
`i` below the tail count, and the bytes between are zero. -/
def Obligations.TailWordHoldsTailBytesAndLength : Prop :=
  ∀ (s t : State) (j : JobDescriptor), s.job = some j → j.wf →
    s.off = 8 * (j.dataLen / 8) → exec .pack s = .next t →
    t.m.extractLsb' 56 8 = BitVec.ofNat 8 (j.dataLen % 256) ∧
    ∀ i < 7,
      (i < j.dataLen % 8 → readByte .msg (s.off + i) s = some (t.m.extractLsb' (8 * i) 8)) ∧
      (j.dataLen % 8 ≤ i → t.m.extractLsb' (8 * i) 8 = 0#8)

/-- 43_tail.md R151: the value of the tail word of a message as a sum, for a message of any length. -/
def Obligations.TailWordArithmeticValue : Prop :=
  ∀ data : List Byte,
    (lastWord data).toNat =
      (data.length % 256) * 2 ^ 56 +
        ∑ i ∈ Finset.range (data.length % 8),
          (data.getD (8 * (data.length / 8) + i) 0#8).toNat * 2 ^ (8 * i)

/-- 45_sipround.md R177: bit `i` goes to bit `(i + n) mod 64`, no bit is lost and none invented; rotation by 32 swaps the
two halves. -/
def Obligations.RotationMovesEveryBitCircularly : Prop :=
  (∀ (x : Word) (n i : Nat), 0 < n → n < 64 → i < 64 →
    (rotl64 x n).getLsbD ((i + n) % 64) = x.getLsbD i) ∧
  ∀ x : Word, rotl64 x 32 = x.extractLsb' 0 32 ++ x.extractLsb' 32 32

/-- 45_sipround.md R172: SipRound in closed form. -/
def Obligations.SipRoundClosedForm : Prop :=
  ∀ a b c d : Word,
    let a1 := a + b
    let c1 := c + d
    let b1 := rotl64 b 13 ^^^ a1
    let d1 := rotl64 d 16 ^^^ c1
    let a2 := rotl64 a1 32
    let c2 := c1 + b1
    let a3 := a2 + d1
    let b2 := rotl64 b1 17 ^^^ c2
    let d2 := rotl64 d1 21 ^^^ a3
    let c3 := rotl64 c2 32
    sipRound ⟨a, b, c, d⟩ = ⟨a3, b2, c3, d2⟩

/-- 45_sipround.md R174: SipRound is a bijection, and its inverse is the fourteen inverse steps in reverse order. -/
def Obligations.SipRoundIsABijection : Prop :=
  Function.Bijective sipRound ∧ Function.LeftInverse sipRoundInv sipRound ∧
    Function.RightInverse sipRoundInv sipRound

/-- 45_sipround.md R170 corner case (a): the all-zero accumulator is a fixed point of SipRound, and `INIT` cannot produce
it. -/
def Obligations.InitNeverProducesTheZeroFixedPoint : Prop :=
  sipRound ⟨0#64, 0#64, 0#64, 0#64⟩ = ⟨0#64, 0#64, 0#64, 0#64⟩ ∧
  ∀ s t : State, exec .init s = .next t → t.v ≠ ⟨0#64, 0#64, 0#64, 0#64⟩

/-! ## Frames -/

/-- The frame of every operation, after the write columns of 10_state.md R24: a register an operation does not write keeps
its value; so does the job, and every byte of both byte spaces reads as before. -/
def Obligations.OperationsWriteOnlyTheirRegisters : Prop :=
  ∀ (i : Instr) (s t : State), exec i s = .next t →
    (i ≠ .init → i ≠ .rnd → i ≠ .xout → t.v.v0 = s.v.v0) ∧
    (i ≠ .init → i ≠ .rnd → t.v.v1 = s.v.v1) ∧
    (i ≠ .init → i ≠ .rnd → i ≠ .fxor → t.v.v2 = s.v.v2) ∧
    (i ≠ .init → i ≠ .rnd → i ≠ .xin → t.v.v3 = s.v.v3) ∧
    (i ≠ .ldblk → i ≠ .pack → t.m = s.m) ∧
    (i ≠ .out → t.digest = s.digest) ∧
    (i = .idle ∨ i = .done ∨ i = .err → t.seq = s.seq) ∧
    (i ≠ .init → i ≠ .pack → i ≠ .fxor → t.stg = s.stg) ∧
    (i ≠ .xin → i ≠ .rnd → i ≠ .fxor → t.rc = s.rc) ∧
    (i ≠ .init → i ≠ .ldblk → i ≠ .pack → t.off = s.off) ∧
    t.job = s.job ∧ ∀ (sp : Space) (a : Nat), readByte sp a t = readByte sp a s

/-- 20_memory.md R58: the engine performs no memory write of any kind. -/
def Obligations.EngineWritesNoMemory : Prop :=
  ∀ s t : State, step s = .next t →
    t.job = s.job ∧ ∀ (sp : Space) (a : Nat), readByte sp a t = readByte sp a s

/-- 20_memory.md R57: an operation depends on no key or message byte but those it is listed to read: with two jobs of the
same lengths that agree on those bytes, it does the same. -/
def Obligations.OperationsReadOnlyTheirBytes : Prop :=
  ∀ (i : Instr) (s t : State) (j j' : JobDescriptor), s.job = some j → j.wf → j'.wf →
    j'.keyLen = j.keyLen → j'.dataLen = j.dataLen →
    (∀ p ∈ byteReads i s,
      readByte p.1 p.2 { s with job := some j' } = readByte p.1 p.2 s) →
    exec i s = .next t →
    exec i { s with job := some j' } = .next { t with job := some j' }

/-! ## Where an operation stops -/

/-- 30_encoding.md R79: each listed combination of control values is a fault. -/
def Obligations.UnreachableCombinationsFault : Prop :=
  ∀ s : State,
    (s.rc = 0#3 → ∃ f, exec .rnd s = .fault f) ∧
    (s.stg = 3#2 → (∃ f, exec .rnd s = .fault f) ∧ ∃ f, exec .xout s = .fault f) ∧
    (s.stg = 2#2 → ∃ f, exec .xout s = .fault f) ∧
    (∀ j, s.job = some j → s.off + 8 > j.dataLen → ∃ f, exec .ldblk s = .fault f) ∧
    (∀ j, s.job = some j → j.dataLen - s.off > 7 ∨ s.off > j.dataLen →
      ∃ f, exec .pack s = .fault f) ∧
    (∀ j, s.job = some j → j.keyLen ≠ 16 → ∃ f, exec .init s = .fault f)

/-- 30_encoding.md R78 (93_implementation_defined.md U3, 92_eei_decisions.md D24): a state that holds the reserved stage code
has no step and is never final. Every operation faults, and so does the engine whatever `seq` is (by this name where `seq` is
named); SUBMIT, READ_STATUS and READ_DIGEST fault too (log 12, DEDUCED); RESET is accepted, reserved codes included
(70_reset_and_hazards.md R240). -/
def Obligations.ReservedStageFaults : Prop :=
  ∀ s : State, s.stg = 3#2 →
    (∀ i, exec i s = .fault .reservedStage) ∧ (∃ f, step s = .fault f) ∧
    (s.seq ≤ 0xB#4 → step s = .fault .reservedStage ∧
      (∀ j, submit j s = .fault .reservedStage) ∧
      readStatus s = .fault .reservedStage ∧ readDigest s = .fault .reservedStage) ∧
    ∃ t, hostStep .reset s = .next (t, .accepted) ∧ t.seq = 0x0#4 ∧ t.job = none

/-- The model's readings of the conditions under which an operation is enabled (log 10, log 11, log 14): `RND` faults with
more rounds than the stage's burst, `XIN` in stage FINAL, `XOUT` with rounds pending, and an operation that reads the job
where none is captured. -/
def Obligations.OperationsFaultWhereNotEnabled : Prop :=
  ∀ s : State,
    ((s.stg = 0#2 ∨ s.stg = 1#2) → 2#3 < s.rc → exec .rnd s = .fault .roundCount) ∧
    (s.stg = 2#2 → 4#3 < s.rc → exec .rnd s = .fault .roundCount) ∧
    (s.stg = 2#2 → exec .xin s = .fault .stageNotAbsorbing) ∧
    ((s.stg = 0#2 ∨ s.stg = 1#2) → s.rc ≠ 0#3 → exec .xout s = .fault .roundsPending) ∧
    (s.job = none →
      (s.stg ≠ 3#2 → exec .kchk s = .fault .noJob ∧ exec .init s = .fault .noJob ∧
        exec .ldblk s = .fault .noJob ∧ exec .pack s = .fault .noJob) ∧
      (s.stg = 0#2 → s.rc = 0#3 → exec .xout s = .fault .noJob))

/-! ## Control transfer -/

/-- 46_sequencer.md R190: the complete successor function, the host's rows included. -/
def Obligations.SuccessorTable : Prop :=
  ∀ s t : State,
    (exec .kchk s = .next t →
      ∃ j, s.job = some j ∧ t.seq = if j.keyLen = 16 then 0x2#4 else 0xB#4) ∧
    (exec .init s = .next t →
      ∃ j, s.job = some j ∧ t.seq = if 8 ≤ j.dataLen then 0x3#4 else 0x4#4) ∧
    (exec .ldblk s = .next t → t.seq = 0x5#4) ∧
    (exec .pack s = .next t → t.seq = 0x5#4) ∧
    (exec .xin s = .next t → t.seq = 0x6#4) ∧
    (exec .rnd s = .next t →
      (t.rc ≠ 0#3 → t.seq = 0x6#4) ∧
      (t.rc = 0#3 → s.stg = 0#2 ∨ s.stg = 1#2 → t.seq = 0x7#4) ∧
      (t.rc = 0#3 → s.stg = 2#2 → t.seq = 0x9#4)) ∧
    (exec .xout s = .next t →
      (s.stg = 0#2 ∧ ∃ j, s.job = some j ∧
        t.seq = if s.off + 8 ≤ j.dataLen then 0x3#4 else 0x4#4) ∨
      (s.stg = 1#2 ∧ t.seq = 0x8#4)) ∧
    (exec .fxor s = .next t → t.seq = 0x6#4) ∧
    (exec .out s = .next t → t.seq = 0xA#4) ∧
    (∀ i, i = .idle ∨ i = .done ∨ i = .err → exec i s = .next t → t.seq = s.seq) ∧
    (∀ j, act (.host (.submit j)) s = .next t → quiescent s = true ∧ t.seq = 0x1#4) ∧
    (∀ r, r = .readStatus ∨ r = .readDigest → act (.host r) s = .next t → t.seq = s.seq) ∧
    (act (.host .reset) s = .next t → t.seq = 0x0#4)

/-- 60_exceptions.md R211: only `KCHK` raises InvalidKeyLength, and exactly when `key_len != 16`: from a state not in
ERR, a step ends in ERR exactly then. -/
def Obligations.OnlyKchkRaisesInvalidKeyLength : Prop :=
  ∀ s t : State, s.seq ≠ 0xB#4 → step s = .next t →
    (t.seq = 0xB#4 ↔ s.seq = 0x1#4 ∧ ∃ j, s.job = some j ∧ j.keyLen ≠ 16)

/-- 40_job_control.md R106, R107, R108 (log 3 for the stutter): a quiescent engine never leaves its state by itself,
however many steps it is given. -/
def Obligations.QuiescentEngineWaitsForTheHost : Prop :=
  ∀ (n : Nat) (s : State), quiescent s = true → s.stg ≠ 3#2 → runEngine n s = .next s

/-! ## The host's transactions -/

/-- 40_job_control.md R100: in a quiescent state SUBMIT captures the descriptor and sets `seq` to KCHK, nothing else;
`status` becomes BUSY, `cause` 0, `done` and `err` fall, and no digest is readable. -/
def Obligations.SubmitCapturesTheJob : Prop :=
  ∀ (s : State) (j : JobDescriptor), s.seq = 0x0#4 ∨ s.seq = 0xA#4 ∨ s.seq = 0xB#4 →
    s.stg ≠ 3#2 → j.wf →
    ∃ t, submit j s = .next t ∧ t = { s with job := some j, seq := 0x1#4 } ∧
      readStatus t = .next (1#2, 0#1) ∧ doneFlag t = false ∧ errFlag t = false ∧
      readDigest t = .refused .digestNotReady

/-- 70_reset_and_hazards.md R246: SUBMIT is refused while a job runs. -/
def Obligations.SubmitIsRefusedWhileBusy : Prop :=
  ∀ (s : State) (j : JobDescriptor), 0x1#4 ≤ s.seq → s.seq ≤ 0x9#4 → s.stg ≠ 3#2 →
    submit j s = .refused .submitWhileBusy

/-- 40_job_control.md R102: READ_STATUS on the twelve named codes, with no side effect, in every state without a reserved
code (30_encoding.md R78). -/
def Obligations.ReadStatusDecodesSeq : Prop :=
  ∀ s : State, s.stg ≠ 3#2 →
    (s.seq = 0x0#4 → readStatus s = .next (0#2, 0#1)) ∧
    (0x1#4 ≤ s.seq → s.seq ≤ 0x9#4 → readStatus s = .next (1#2, 0#1)) ∧
    (s.seq = 0xA#4 → readStatus s = .next (2#2, 0#1)) ∧
    (s.seq = 0xB#4 → readStatus s = .next (3#2, 1#1)) ∧
    (s.seq ≤ 0xB#4 → act (.host .readStatus) s = .next s)

/-- 40_job_control.md R103: READ_DIGEST returns `digest` in DONE with no side effect, and is refused under every other named
code; in a state without the reserved stage (30_encoding.md R78). -/
def Obligations.ReadDigestOnlyWhenDone : Prop :=
  ∀ s : State, s.stg ≠ 3#2 →
    (s.seq = 0xA#4 → readDigest s = .next s.digest ∧
      hostStep .readDigest s = .next (s, .digest s.digest)) ∧
    (s.seq ≤ 0xB#4 → s.seq ≠ 0xA#4 → readDigest s = .refused .digestNotReady)

/-- 70_reset_and_hazards.md R240: RESET is accepted in every state and leaves IDLE with no job, `status` 0, `cause` 0
and no readable digest. Nothing is said of the registers R240 leaves unspecified: what rests on the stage not being the
reserved one (30_encoding.md R78: reset leaves no reserved code) asks for it. -/
def Obligations.ResetAlwaysReturnsToIdle : Prop :=
  ∀ s : State, ∃ t, hostStep .reset s = .next (t, .accepted) ∧ t.seq = 0x0#4 ∧ t.job = none ∧
    status t = 0#2 ∧ cause t = 0#1 ∧ (∀ d, readDigest t ≠ .next d) ∧
    (t.stg ≠ 3#2 →
      readStatus t = .next (0#2, 0#1) ∧ readDigest t = .refused .digestNotReady) ∧
    busy t = false ∧ doneFlag t = false ∧ errFlag t = false

/-- 10_state.md R39: the state after reset is IDLE with no job captured, `status` 0, `cause` 0, the flags 0 and no
readable digest. Nothing is said of the registers R39 leaves unspecified, and what rests on the stage asks for it. -/
def Obligations.ResetStateIsIdle : Prop :=
  State.reset.seq = 0x0#4 ∧ State.reset.job = none ∧
    status State.reset = 0#2 ∧ cause State.reset = 0#1 ∧
    (∀ d, readDigest State.reset ≠ .next d) ∧
    (State.reset.stg ≠ 3#2 → readStatus State.reset = .next (0#2, 0#1)) ∧ busy State.reset = false ∧
    doneFlag State.reset = false ∧ errFlag State.reset = false

/-- 10_state.md R31: the signals are decodes of `seq`, and exactly one of `busy`, `done`, `err`, `idle` holds whenever
`seq` is not a reserved code. -/
def Obligations.StatusSignalsAreExclusive : Prop :=
  ∀ s : State,
    (busy s = true ↔ 0x1#4 ≤ s.seq ∧ s.seq ≤ 0x9#4) ∧
    (doneFlag s = true ↔ s.seq = 0xA#4) ∧ (errFlag s = true ↔ s.seq = 0xB#4) ∧
    (idleFlag s = true ↔ s.seq = 0x0#4) ∧
    (s.seq ≤ 0xB#4 →
      ([busy s, doneFlag s, errFlag s, idleFlag s].filter id).length = 1)

/-- 10_state.md R30: while a job runs no move but RESET changes the captured descriptor. -/
def Obligations.CapturedJobIsImmutableWhileBusy : Prop :=
  ∀ (mv : Move) (s t : State), busy s = true → mv ≠ .host .reset → act mv s = .next t →
    t.job = s.job

/-- 60_exceptions.md R226, 10_state.md R25, R33: no port shows more of `seq` than the two bits of `status`, nor any other
register but `digest` in DONE: under named codes with the same `status`, and the same `digest` if it is DONE, the host reads
the same. -/
def Obligations.HostSeesOnlyStatusCauseAndDigest : Prop :=
  ∀ s s' : State, s.seq ≤ 0xB#4 → s'.seq ≤ 0xB#4 → s.stg ≠ 3#2 → s'.stg ≠ 3#2 →
    status s' = status s →
    (s.seq = 0xA#4 → s'.digest = s.digest) →
    readStatus s' = readStatus s ∧ readDigest s' = readDigest s

/-! ## Invariants -/

/-- 46_sequencer.md R196 at reset (10_state.md R39). That the stage at reset is a named one, which R39 leaves unspecified and
30_encoding.md R78 asks for, is the model's value 0 (log 1). -/
def Obligations.InvariantHoldsAtReset : Prop := Machine.Inv State.reset

/-- 46_sequencer.md R196 items 1 to 8: every engine step keeps the control invariant, from every state that meets it.
Its clause on the stage is 30_encoding.md R78's, which holds whatever `seq` is. -/
def Obligations.EngineStepKeepsTheControlInvariant : Prop :=
  ∀ s t : State, ControlInv s → step s = .next t → ControlInv t

/-- 46_sequencer.md R196 items 1 to 10: every move of either agent keeps the whole invariant, from every state that meets
it. Its data part says that the accumulator is the partial result of `sum64` at the job's place in the algorithm. After RESET
the stage is a named one by the model's value for it (log 2). -/
def Obligations.EveryMoveKeepsTheWholeInvariant : Prop :=
  ∀ (mv : Move) (s t : State), Machine.Inv s → act mv s = .next t → Machine.Inv t

/-- 46_sequencer.md R196, last sentence, and 20_memory.md R59: under the control invariant the engine's step goes on and no
move of the host faults. That the step goes on under IDLE, DONE and ERR too is the model's choice (log 3). -/
def Obligations.NoFaultUnderTheControlInvariant : Prop :=
  ∀ s : State, ControlInv s →
    (∃ t, step s = .next t) ∧ ∀ (r : HostRequest) (f : Fault), hostStep r s ≠ .fault f

/-- 46_sequencer.md R196 item 10: after any run of moves from reset, the engine can step (under IDLE, DONE and ERR by the
model's choice, log 3, and at reset with the model's value for the stage, log 1, log 2), and if `seq` is DONE the digest is
`sum64` of the job last submitted. -/
def Obligations.ReachableDigestIsSum64 : Prop :=
  ∀ (moves : List Move) (t : State), runMoves moves State.reset = .next t →
    (∃ u, step t = .next u) ∧
    (t.seq = 0xA#4 → ∃ j, t.job = some j ∧ sum64 j.keyBytes j.dataBytes = some t.digest)

/-- 10_state.md R29: whatever the width LENW of lengths, `off` fits it wherever it is live: `off <= data_len < 2^LENW`. -/
def Obligations.OffsetNeverWraps : Prop :=
  ∀ (s : State) (j : JobDescriptor) (lenw : Nat), ControlInv s → s.job = some j →
    0x3#4 ≤ s.seq → s.seq ≤ 0x9#4 → j.dataLen < 2 ^ lenw →
    s.off ≤ j.dataLen ∧ s.off < 2 ^ lenw

/-! ## Bursts and whole jobs -/

/-- 42_compress.md R133: from `XIN`, the four operations `XIN; RND; RND; XOUT` change the accumulator to
`compress(v, m)` and keep `m`. -/
def Obligations.CompressBracketComputesCompress : Prop :=
  ∀ s : State, s.seq = 0x5#4 → (s.stg = 0#2 ∧ s.job.isSome) ∨ s.stg = 1#2 →
    trace 4 s = [.xin, .rnd, .rnd, .xout] ∧
    ∃ t, runEngine 4 s = .next t ∧ t.v = compress s.v s.m ∧ t.m = s.m ∧ t.off = s.off ∧
      t.stg = s.stg

/-- 44_finalize.md R162: from `FXOR`, the six operations `FXOR; RND; RND; RND; RND; OUT` set `digest` to `finalize(v)` and end
in DONE. -/
def Obligations.FinalizeBracketComputesFinalize : Prop :=
  ∀ s : State, s.seq = 0x8#4 → s.stg ≠ 3#2 →
    trace 6 s = [.fxor, .rnd, .rnd, .rnd, .rnd, .out] ∧
    ∃ t, runEngine 6 s = .next t ∧ t.seq = 0xA#4 ∧ t.digest = finalize s.v

/-- 46_sequencer.md R200: from any quiescent state, after SUBMIT of a job with a 16-byte key and with no RESET, the engine
is BUSY for `13 + 5*(data_len div 8)` steps and then DONE, and READ_DIGEST returns `sum64(key, data)`. -/
def Obligations.EngineComputesSum64 : Prop :=
  ∀ (s : State) (j : JobDescriptor), quiescent s = true → s.stg ≠ 3#2 → j.wf → j.keyLen = 16 →
    ∃ s0 t d, submit j s = .next s0 ∧
      (∀ n < 13 + 5 * (j.dataLen / 8), ∃ u, runEngine n s0 = .next u ∧ busy u = true) ∧
      runEngine (13 + 5 * (j.dataLen / 8)) s0 = .next t ∧ t.seq = 0xA#4 ∧
      sum64 j.keyBytes j.dataBytes = some d ∧ readDigest t = .next d

/-- 46_sequencer.md R200 and 60_exceptions.md R213 for a key of any other length: one step, ERR, `status` 3, `cause` 1, no
digest, no byte read, and no register but `seq` and `job` different from what it was before SUBMIT. -/
def Obligations.InvalidKeyLengthEndsInErr : Prop :=
  ∀ (s : State) (j : JobDescriptor), quiescent s = true → s.stg ≠ 3#2 → j.wf → j.keyLen ≠ 16 →
    ∃ s0 t, submit j s = .next s0 ∧ step s0 = .next t ∧
      t = { s with job := some j, seq := 0xB#4 } ∧ bytesRead 1 s0 = [] ∧
      readStatus t = .next (3#2, 1#1) ∧ readDigest t = .refused .digestNotReady

/-- 70_reset_and_hazards.md R253, 46_sequencer.md R198: whatever the order in which the engine moves and the host reads
`status`, once the engine has moved `13 + 5*(data_len div 8)` times the job is over, in DONE with its digest or in ERR. That an engine
move past the end of the job answers a next state is the model's choice (log 3). -/
def Obligations.JobEndsOnceTheEngineHasMovedEnough : Prop :=
  ∀ (s s0 : State) (j : JobDescriptor) (moves : List Move), submit j s = .next s0 →
    (∀ mv ∈ moves, mv = .engine ∨ mv = .host .readStatus) →
    13 + 5 * (j.dataLen / 8) ≤ moves.count .engine →
    ∃ t, runMoves moves s0 = .next t ∧
      (j.keyLen = 16 → t.seq = 0xA#4 ∧ sum64 j.keyBytes j.dataBytes = some t.digest) ∧
      (j.keyLen ≠ 16 → t.seq = 0xB#4)

/-- 10_state.md R36: the outcome of a job does not depend on what the block held before: from two quiescent states the same
job has, step by step, the same `seq` and so the same `status`, and the same digest. -/
def Obligations.JobOutcomeIsIndependentOfThePast : Prop :=
  ∀ (s s' a b : State) (j : JobDescriptor), submit j s = .next a → submit j s' = .next b →
    ∀ (n : Nat) (t : State), runEngine n a = .next t →
      ∃ t', runEngine n b = .next t' ∧ t'.seq = t.seq ∧ (t.seq = 0xA#4 → t'.digest = t.digest)

/-- 30_encoding.md R82, 46_sequencer.md R191: the operations the engine executes for a job are the expansion of `SUM64`, which
is a function of the two lengths alone, never of key or message contents. -/
def Obligations.JobTraceIsTheSum64Expansion : Prop :=
  ∀ (s : State) (j : JobDescriptor), s.seq = 0x1#4 → s.stg ≠ 3#2 → s.job = some j → j.wf →
    trace (sum64Ops j.keyLen j.dataLen).length s = sum64Ops j.keyLen j.dataLen

/-- 46_sequencer.md R198: how many operations of each kind a job executes. -/
def Obligations.JobOperationCounts : Prop :=
  ∀ keyLen dataLen : Nat,
    (keyLen = 16 →
      (sum64Ops keyLen dataLen).length = 13 + 5 * (dataLen / 8) ∧
      (sum64Ops keyLen dataLen).count .kchk = 1 ∧ (sum64Ops keyLen dataLen).count .init = 1 ∧
      (sum64Ops keyLen dataLen).count .ldblk = dataLen / 8 ∧
      (sum64Ops keyLen dataLen).count .pack = 1 ∧
      (sum64Ops keyLen dataLen).count .xin = dataLen / 8 + 1 ∧
      (sum64Ops keyLen dataLen).count .rnd = 2 * (dataLen / 8) + 6 ∧
      (sum64Ops keyLen dataLen).count .xout = dataLen / 8 + 1 ∧
      (sum64Ops keyLen dataLen).count .fxor = 1 ∧ (sum64Ops keyLen dataLen).count .out = 1) ∧
    (keyLen ≠ 16 → sum64Ops keyLen dataLen = [.kchk])

/-- 20_memory.md R57, R62: over a whole job each key byte and each message byte is read exactly once, in increasing offset
order, KEY before MSG. -/
def Obligations.EveryInputByteIsReadOnceInOrder : Prop :=
  ∀ (s : State) (j : JobDescriptor), s.seq = 0x1#4 → s.stg ≠ 3#2 → s.job = some j → j.wf →
    j.keyLen = 16 →
    bytesRead (13 + 5 * (j.dataLen / 8)) s =
      (List.range 16).map (Space.key, ·) ++ (List.range j.dataLen).map (Space.msg, ·)
end

