-- ==== Sys2Proof/Laws/State.lean ====
section
/-! SUPPORT. One lemma per field per update of the state, so that no later proof unfolds a record update. -/

namespace Sys2Proof.Machine

variable (i : Instr) (s : State) (v : Acc) (w : Word)

@[simp] theorem goto_v : (goto i s).v = s.v := rfl
@[simp] theorem goto_m : (goto i s).m = s.m := rfl
@[simp] theorem goto_digest : (goto i s).digest = s.digest := rfl
@[simp] theorem goto_seq : (goto i s).seq = encode i := rfl
@[simp] theorem goto_stg : (goto i s).stg = s.stg := rfl
@[simp] theorem goto_rc : (goto i s).rc = s.rc := rfl
@[simp] theorem goto_off : (goto i s).off = s.off := rfl
@[simp] theorem goto_job : (goto i s).job = s.job := rfl

/-! One spelling for the codes and constants in proofs: their numerals. -/

@[simp] theorem stage_block : Stage.block = 0#2 := rfl
@[simp] theorem stage_tail : Stage.tail = 1#2 := rfl
@[simp] theorem stage_final : Stage.final = 2#2 := rfl
@[simp] theorem stage_reserved : Stage.reserved = 3#2 := rfl
@[simp] theorem cRounds_eq : Config.cRounds = 2#3 := rfl
@[simp] theorem dRounds_eq : Config.dRounds = 4#3 := rfl
@[simp] theorem finalConst_eq : Config.finalConst = 0xff#64 := rfl
@[simp] theorem encode_idle : encode .idle = 0x0#4 := rfl
@[simp] theorem encode_kchk : encode .kchk = 0x1#4 := rfl
@[simp] theorem encode_init : encode .init = 0x2#4 := rfl
@[simp] theorem encode_ldblk : encode .ldblk = 0x3#4 := rfl
@[simp] theorem encode_pack : encode .pack = 0x4#4 := rfl
@[simp] theorem encode_xin : encode .xin = 0x5#4 := rfl
@[simp] theorem encode_rnd : encode .rnd = 0x6#4 := rfl
@[simp] theorem encode_xout : encode .xout = 0x7#4 := rfl
@[simp] theorem encode_fxor : encode .fxor = 0x8#4 := rfl
@[simp] theorem encode_out : encode .out = 0x9#4 := rfl
@[simp] theorem encode_done : encode .done = 0xA#4 := rfl
@[simp] theorem encode_err : encode .err = 0xB#4 := rfl

@[simp] theorem raiseInvalidKeyLength_eq : raiseInvalidKeyLength s = goto .err s := rfl
@[simp] theorem fetch_eq : fetch s = s.seq := rfl
@[simp] theorem hostReset_eq : hostReset s = State.reset := rfl

@[simp] theorem xorV3_v0 : (v.xorV3 w).v0 = v.v0 := rfl
@[simp] theorem xorV3_v1 : (v.xorV3 w).v1 = v.v1 := rfl
@[simp] theorem xorV3_v2 : (v.xorV3 w).v2 = v.v2 := rfl
@[simp] theorem xorV3_v3 : (v.xorV3 w).v3 = v.v3 ^^^ w := rfl
@[simp] theorem xorV0_v0 : (v.xorV0 w).v0 = v.v0 ^^^ w := rfl
@[simp] theorem xorV0_v1 : (v.xorV0 w).v1 = v.v1 := rfl
@[simp] theorem xorV0_v2 : (v.xorV0 w).v2 = v.v2 := rfl
@[simp] theorem xorV0_v3 : (v.xorV0 w).v3 = v.v3 := rfl
@[simp] theorem xorV2_v0 : (v.xorV2 w).v0 = v.v0 := rfl
@[simp] theorem xorV2_v1 : (v.xorV2 w).v1 = v.v1 := rfl
@[simp] theorem xorV2_v2 : (v.xorV2 w).v2 = v.v2 ^^^ w := rfl
@[simp] theorem xorV2_v3 : (v.xorV2 w).v3 = v.v3 := rfl

@[simp] theorem reset_v : State.reset.v = ⟨0, 0, 0, 0⟩ := rfl
@[simp] theorem reset_m : State.reset.m = 0 := rfl
@[simp] theorem reset_digest : State.reset.digest = 0 := rfl
@[simp] theorem reset_seq : State.reset.seq = 0x0#4 := rfl
@[simp] theorem reset_stg : State.reset.stg = 0 := rfl
@[simp] theorem reset_rc : State.reset.rc = 0 := rfl
@[simp] theorem reset_off : State.reset.off = 0 := rfl
@[simp] theorem reset_job : State.reset.job = none := rfl

end Sys2Proof.Machine
end

