-- ==== Sys2Proof/Laws/Memory.lean ====
section
/-! SUPPORT. The byte spaces: a space laid out from a byte string is canonical and reads back that string; `MemRead` of a
well-formed descriptor gives the bytes of the space; no operation changes the captured job. -/

namespace Sys2Proof

theorem Memory.ofBytesFrom_fst (bs : List Byte) (a : Nat) :
    (Memory.ofBytesFrom a bs).map Prod.fst = List.range' a bs.length := by
  induction bs generalizing a with
  | nil => rfl
  | cons b bs ih => simp [Memory.ofBytesFrom, ih, List.range'_succ]

theorem Memory.ofBytesFrom_snd (bs : List Byte) (a : Nat) :
    (Memory.ofBytesFrom a bs).map Prod.snd = bs := by
  induction bs generalizing a with
  | nil => rfl
  | cons b bs ih => simp [Memory.ofBytesFrom, ih]

/-- Offsets `a, a+1, …` and the bytes under them determine the cells. -/
theorem Memory.eq_ofBytesFrom (mem : Memory) (a : Nat)
    (h : mem.map Prod.fst = List.range' a mem.length) :
    mem = Memory.ofBytesFrom a (mem.map Prod.snd) := by
  induction mem generalizing a with
  | nil => rfl
  | cons c rest ih =>
    obtain ⟨x, b⟩ := c
    simp only [List.map_cons, List.length_cons, List.range'_succ, List.cons.injEq] at h
    obtain ⟨rfl, h⟩ := h
    simp [Memory.ofBytesFrom, ← ih _ h]

theorem Memory.covers_length {mem : Memory} {n : Nat} (h : mem.covers n) : mem.length = n := by
  simpa using congrArg List.length h

theorem Memory.ofBytes_covers (bs : List Byte) : (Memory.ofBytesFrom 0 bs).covers bs.length := by
  simp [Memory.covers, Memory.ofBytesFrom_fst, List.range_eq_range']

theorem Memory.eq_ofBytes {mem : Memory} {n : Nat} (h : mem.covers n) :
    mem = Memory.ofBytesFrom 0 (mem.map Prod.snd) :=
  Memory.eq_ofBytesFrom mem 0 (by rw [Memory.covers_length h, h, List.range_eq_range'])

/-- A space with exactly the offsets `0 .. n-1` is in canonical form. -/
theorem Memory.covers_wf {mem : Memory} {n : Nat} (h : mem.covers n) : mem.wf := by
  have : (mem.map Prod.fst).Pairwise (· < ·) := by rw [h]; exact List.pairwise_lt_range
  simpa [Memory.wf, List.pairwise_map] using this

theorem Memory.read_ofBytesFrom (bs : List Byte) (a x : Nat) :
    (Memory.ofBytesFrom a bs).read (a + x) = bs[x]? := by
  induction bs generalizing a x with
  | nil => simp [Memory.ofBytesFrom, Memory.read]
  | cons b bs ih =>
    cases x with
    | zero => simp [Memory.ofBytesFrom, Memory.read]
    | succ x =>
      have := ih (a + 1) x
      simp only [Memory.ofBytesFrom, Memory.read]
      rw [if_neg (by omega), show a + (x + 1) = a + 1 + x by omega, this]
      simp

theorem Memory.readBytes_ofBytes (bs : List Byte) (a n : Nat) (h : a + n ≤ bs.length) :
    (Memory.ofBytesFrom 0 bs).readBytes a n = some ((bs.drop a).take n) := by
  induction n generalizing a with
  | zero => simp [Memory.readBytes]
  | succ n ih =>
    have hr : (Memory.ofBytesFrom 0 bs).read a = some bs[a] := by
      simpa [List.getElem?_eq_getElem (show a < bs.length by omega)]
        using Memory.read_ofBytesFrom bs 0 a
    simp only [Memory.readBytes, hr, ih (a + 1) (by omega)]
    rw [List.drop_eq_getElem_cons (show a < bs.length by omega), List.take_succ_cons]

theorem JobDescriptor.ofBytes_wf (key data : List Byte) : (JobDescriptor.ofBytes key data).wf :=
  ⟨Memory.ofBytes_covers key, Memory.ofBytes_covers data⟩

@[simp] theorem JobDescriptor.ofBytes_keyLen (key data : List Byte) :
    (JobDescriptor.ofBytes key data).keyLen = key.length := rfl
@[simp] theorem JobDescriptor.ofBytes_dataLen (key data : List Byte) :
    (JobDescriptor.ofBytes key data).dataLen = data.length := rfl
@[simp] theorem JobDescriptor.ofBytes_keyBytes (key data : List Byte) :
    (JobDescriptor.ofBytes key data).keyBytes = key := Memory.ofBytesFrom_snd key 0
@[simp] theorem JobDescriptor.ofBytes_dataBytes (key data : List Byte) :
    (JobDescriptor.ofBytes key data).dataBytes = data := Memory.ofBytesFrom_snd data 0

theorem JobDescriptor.keyBytes_length {j : JobDescriptor} (h : j.wf) :
    j.keyBytes.length = j.keyLen := by
  simpa [JobDescriptor.keyBytes] using Memory.covers_length h.1

theorem JobDescriptor.dataBytes_length {j : JobDescriptor} (h : j.wf) :
    j.dataBytes.length = j.dataLen := by
  simpa [JobDescriptor.dataBytes] using Memory.covers_length h.2

/-- A well-formed descriptor is the one its byte strings make. -/
theorem JobDescriptor.eq_ofBytes {j : JobDescriptor} (h : j.wf) :
    j = JobDescriptor.ofBytes j.keyBytes j.dataBytes := by
  obtain ⟨kl, k, dl, d⟩ := j
  have hk := Memory.covers_length h.1
  have hd := Memory.covers_length h.2
  have ek := Memory.eq_ofBytes h.1
  have ed := Memory.eq_ofBytes h.2
  simp only at hk hd ek ed
  simp [JobDescriptor.ofBytes, JobDescriptor.keyBytes, JobDescriptor.dataBytes, hk, hd, ← ek, ← ed]

namespace Machine

/-- The bytes of a space of a descriptor, in offset order. -/
def spaceBytes (j : JobDescriptor) : Space → List Byte
  | .key => j.keyBytes
  | .msg => j.dataBytes

theorem spaceBytes_length {j : JobDescriptor} (h : j.wf) (sp : Space) :
    (spaceBytes j sp).length = spaceLen j sp := by
  cases sp
  · exact JobDescriptor.keyBytes_length h
  · exact JobDescriptor.dataBytes_length h

theorem spaceOf_eq {j : JobDescriptor} (h : j.wf) (sp : Space) :
    spaceOf j sp = Memory.ofBytesFrom 0 (spaceBytes j sp) := by
  cases sp
  · exact Memory.eq_ofBytes h.1
  · exact Memory.eq_ofBytes h.2

/-- `MemRead` on a well-formed descriptor (20_memory.md R52). -/
theorem memRead_wf {j : JobDescriptor} (h : j.wf) {sp : Space} {a n : Nat}
    (hn : a + n ≤ spaceLen j sp) :
    memRead j sp a n = some (((spaceBytes j sp).drop a).take n) := by
  rw [memRead, if_pos hn, spaceOf_eq h, Memory.readBytes_ofBytes]
  rwa [spaceBytes_length h]

/-- One byte of a well-formed captured job. -/
theorem readByte_wf {s : State} {j : JobDescriptor} (hj : s.job = some j) (h : j.wf) (sp : Space)
    (a : Nat) : readByte sp a s = (spaceBytes j sp)[a]? := by
  have hl := spaceBytes_length h sp
  simp only [readByte, hj]
  split
  · rw [spaceOf_eq h]
    simpa using Memory.read_ofBytesFrom (spaceBytes j sp) 0 a
  · rw [List.getElem?_eq_none (by omega)]

/-- A byte is read through the captured job alone. -/
theorem readByte_congr {s t : State} (h : t.job = s.job) (sp : Space) (a : Nat) :
    readByte sp a t = readByte sp a s := by simp [readByte, h]

end Machine
end Sys2Proof
end

