-- ==== Sys2Proof/Laws/Ops.lean ====
section
/-! SUPPORT. For each shared operation, everything it can do: when it goes on, and when it stops. -/

namespace Sys2Proof.Machine

variable {c : Prop} [Decidable c] {f : Fault} {k : Result} {s t : State}

theorem next_eq_iff {a t : State} : (Host.Outcome.next a : Result) = .next t ↔ t = a := by
  rw [Host.Outcome.next.injEq, eq_comm]

theorem require_next : require c f k = .next t ↔ c ∧ k = .next t := by
  unfold require; split <;> simp [*]

@[simp] theorem require_pos (h : c) : require c f k = k := if_pos h
@[simp] theorem require_neg (h : ¬ c) : require c f k = .fault f := if_neg h

theorem withJob_next {k : JobDescriptor → Result} :
    withJob s k = .next t ↔ ∃ j, s.job = some j ∧ k j = .next t := by
  unfold withJob; split <;> simp [*]

theorem withJob_some {k : JobDescriptor → Result} {j : JobDescriptor} (h : s.job = some j) :
    withJob s k = k j := by simp [withJob, h]

theorem withJob_none {k : JobDescriptor → Result} (h : s.job = none) :
    withJob s k = .fault .noJob := by simp [withJob, h]

theorem withBytes_next {k : List Byte → Result} {j : JobDescriptor} {sp : Space} {a n : Nat} :
    withBytes j sp a n k = .next t ↔ ∃ bs, memRead j sp a n = some bs ∧ k bs = .next t := by
  unfold withBytes; split <;> simp [*]

theorem withBytes_wf {k : List Byte → Result} {j : JobDescriptor} (h : j.wf) {sp : Space}
    {a n : Nat} (hn : a + n ≤ spaceLen j sp) :
    withBytes j sp a n k = k (((spaceBytes j sp).drop a).take n) := by
  simp [withBytes, memRead_wf h hn]

theorem blockSuccessor_pos {off len : Nat} (h : off + 8 ≤ len) : blockSuccessor off len = .ldblk :=
  if_pos h

theorem blockSuccessor_neg {off len : Nat} (h : ¬ off + 8 ≤ len) : blockSuccessor off len = .pack :=
  if_neg h

/-- The decoder gives back every operation from its code (30_encoding.md R71). -/
@[simp] theorem decode_encode (i : Instr) : decode (encode i) = .ok i := by cases i <;> rfl

/-- A code that decodes is the code of its operation. -/
theorem encode_of_decode {c : OpCode} {i : Instr} (h : decode c = .ok i) : encode i = c := by
  have all : ∀ c : OpCode, (match decode c with
      | .ok i => encode i == c
      | .error _ => true) = true := by decide
  simpa [h] using all c

theorem encode_injective {i j : Instr} (h : encode i = encode j) : i = j := by
  simpa using congrArg decode h

/-- A step on a named code is that operation's meaning (40_job_control.md R108). -/
theorem step_atOp {i : Instr} (h : s.seq = encode i) : step s = exec i s := by
  simp [step, h]

/-- What a step that goes on can have done: one operation, the one whose code `seq` held. -/
theorem step_next (h : step s = .next t) : ∃ i, s.seq = encode i ∧ exec i s = .next t := by
  unfold step at h
  split at h
  · next i hi => exact ⟨i, (encode_of_decode hi).symm, h⟩
  · simp at h

end Sys2Proof.Machine
end

