-- ==== Sys2Proof/Laws/Exec.lean ====
section
/-! SUPPORT. One lemma per operation that says everything it can have done when it goes on: its guards and the one next
state. Provers cite these; they do not unfold a meaning. -/

namespace Sys2Proof.Machine

variable {s t : State}

theorem execKchk_next : execKchk s = .next t ↔ s.stg ≠ Stage.reserved ∧ ∃ j, s.job = some j ∧
    t = goto (if j.keyLen = 16 then .init else .err) s := by
  rw [execKchk, require_next, withJob_next]
  refine and_congr_right fun _ => exists_congr fun j => and_congr_right fun _ => ?_
  split <;> simp [eq_comm]

theorem execInit_next : execInit s = .next t ↔ ∃ j b0 b1, s.stg ≠ Stage.reserved ∧ s.job = some j ∧ j.keyLen = 16 ∧
    memRead j .key 0 8 = some b0 ∧ memRead j .key 8 8 = some b1 ∧
    t = goto (blockSuccessor 0 j.dataLen)
      { s with
        v := initAcc Config.initConstants (le64 b0) (le64 b1)
        off := 0
        stg := Stage.block } := by
  simp only [execInit, withJob_next, require_next, withBytes_next]
  constructor
  · rintro ⟨hs, j, hj, hk, b0, h0, b1, h1, h⟩
    exact ⟨j, b0, b1, hs, hj, hk, h0, h1, by simpa using h.symm⟩
  · rintro ⟨j, b0, b1, hs, hj, hk, h0, h1, rfl⟩
    exact ⟨hs, j, hj, hk, b0, h0, b1, h1, rfl⟩

theorem execLdblk_next : execLdblk s = .next t ↔ ∃ j bs, s.stg ≠ Stage.reserved ∧
    s.job = some j ∧ s.off + 8 ≤ j.dataLen ∧ memRead j .msg s.off 8 = some bs ∧
    t = goto .xin { s with m := le64 bs, off := s.off + 8 } := by
  simp only [execLdblk, withJob_next, require_next, withBytes_next]
  constructor
  · rintro ⟨hs, j, hj, hl, bs, hb, h⟩
    exact ⟨j, bs, hs, hj, hl, hb, by simpa using h.symm⟩
  · rintro ⟨j, bs, hs, hj, hl, hb, rfl⟩
    exact ⟨hs, j, hj, hl, bs, hb, rfl⟩

theorem execPack_next : execPack s = .next t ↔ ∃ j bs, s.stg ≠ Stage.reserved ∧
    s.job = some j ∧ s.off ≤ j.dataLen ∧ j.dataLen - s.off ≤ 7 ∧
    memRead j .msg s.off (j.dataLen - s.off) = some bs ∧
    t = goto .xin { s with m := tailWord j.dataLen bs, off := j.dataLen, stg := Stage.tail } := by
  simp only [execPack, withJob_next, require_next, withBytes_next]
  constructor
  · rintro ⟨hs, j, hj, ⟨hl, h7⟩, bs, hb, h⟩
    exact ⟨j, bs, hs, hj, hl, h7, hb, by simpa using h.symm⟩
  · rintro ⟨j, bs, hs, hj, hl, h7, hb, rfl⟩
    exact ⟨hs, j, hj, ⟨hl, h7⟩, bs, hb, rfl⟩

theorem execXin_next : execXin s = .next t ↔ s.stg ≠ Stage.reserved ∧ s.stg ≠ Stage.final ∧
    t = goto .rnd { s with v := s.v.xorV3 s.m, rc := Config.cRounds } := by
  simp only [execXin, require_next, next_eq_iff]

theorem execRnd_next : execRnd s = .next t ↔ s.stg ≠ Stage.reserved ∧
    (s.rc ≠ 0 ∧ s.rc ≤ burstLength s.stg) ∧
    t = goto (roundSuccessor (s.rc - 1) s.stg) { s with v := sipRound s.v, rc := s.rc - 1 } := by
  simp only [execRnd, require_next, next_eq_iff]

theorem execXout_next : execXout s = .next t ↔ s.stg ≠ Stage.reserved ∧ s.stg ≠ Stage.final ∧
    s.rc = 0 ∧
    ((∃ j, s.stg = Stage.block ∧ s.job = some j ∧
        t = goto (blockSuccessor s.off j.dataLen) { s with v := s.v.xorV0 s.m }) ∨
      (s.stg ≠ Stage.block ∧ t = goto .fxor { s with v := s.v.xorV0 s.m })) := by
  simp only [execXout, require_next]
  refine and_congr_right fun _ => and_congr_right fun _ => and_congr_right fun _ => ?_
  split
  · next h => simp [withJob_next, h, eq_comm (b := t)]
  · next h => simp [h, eq_comm (b := t)]

theorem execFxor_next : execFxor s = .next t ↔ s.stg ≠ Stage.reserved ∧
    t = goto .rnd
      { s with v := s.v.xorV2 Config.finalConst, stg := Stage.final, rc := Config.dRounds } := by
  simp only [execFxor, require_next, next_eq_iff]

theorem execOut_next : execOut s = .next t ↔ s.stg ≠ Stage.reserved ∧
    t = goto .done { s with digest := s.v.fold } := by
  simp only [execOut, require_next, next_eq_iff]

theorem execIdle_next : execIdle s = .next t ↔ s.stg ≠ Stage.reserved ∧ t = s := by
  simp only [execIdle, require_next, next_eq_iff]

theorem execDone_next : execDone s = .next t ↔ s.stg ≠ Stage.reserved ∧ t = s := by
  simp only [execDone, require_next, next_eq_iff]

theorem execErr_next : execErr s = .next t ↔ s.stg ≠ Stage.reserved ∧ t = s := by
  simp only [execErr, require_next, next_eq_iff]

/-- With the reserved stage every operation stops, and for that reason (30_encoding.md R78). -/
theorem exec_reservedStage (i : Instr) (h : s.stg = Stage.reserved) :
    exec i s = .fault .reservedStage := by
  cases i <;> exact require_neg (not_not.2 h)

/-- Whatever goes on does so in a named stage. -/
theorem exec_stage {i : Instr} (h : exec i s = .next t) : s.stg ≠ Stage.reserved := by
  intro hs
  simp [exec_reservedStage i hs] at h

/-- No operation writes the reserved stage (30_encoding.md R78), and none goes on from it. -/
theorem exec_next_stage {i : Instr} (h : exec i s = .next t) : t.stg ≠ Stage.reserved := by
  have hs := exec_stage h
  cases i <;> simp only [exec] at h
  case idle => rwa [(execIdle_next.1 h).2]
  case kchk => obtain ⟨_, _, _, rfl⟩ := execKchk_next.1 h; exact hs
  case init => obtain ⟨_, _, _, _, _, _, _, _, rfl⟩ := execInit_next.1 h; simp
  case ldblk => obtain ⟨_, _, _, _, _, _, rfl⟩ := execLdblk_next.1 h; exact hs
  case pack => obtain ⟨_, _, _, _, _, _, _, rfl⟩ := execPack_next.1 h; simp
  case xin => obtain ⟨_, _, rfl⟩ := execXin_next.1 h; exact hs
  case rnd => obtain ⟨_, _, rfl⟩ := execRnd_next.1 h; exact hs
  case xout => obtain ⟨_, _, _, ⟨_, _, _, rfl⟩ | ⟨_, rfl⟩⟩ := execXout_next.1 h <;> exact hs
  case fxor => obtain ⟨_, rfl⟩ := execFxor_next.1 h; simp
  case out => obtain ⟨_, rfl⟩ := execOut_next.1 h; exact hs
  case done => rwa [(execDone_next.1 h).2]
  case err => rwa [(execErr_next.1 h).2]

/-- No operation writes the captured job (10_state.md R24, R30). -/
theorem exec_job {i : Instr} (h : exec i s = .next t) : t.job = s.job := by
  cases i <;> simp only [exec] at h
  case idle => rw [(execIdle_next.1 h).2]
  case kchk => obtain ⟨_, _, _, rfl⟩ := execKchk_next.1 h; rfl
  case init => obtain ⟨_, _, _, _, _, _, _, _, rfl⟩ := execInit_next.1 h; rfl
  case ldblk => obtain ⟨_, _, _, _, _, _, rfl⟩ := execLdblk_next.1 h; rfl
  case pack => obtain ⟨_, _, _, _, _, _, _, rfl⟩ := execPack_next.1 h; rfl
  case xin => obtain ⟨_, _, rfl⟩ := execXin_next.1 h; rfl
  case rnd => obtain ⟨_, _, rfl⟩ := execRnd_next.1 h; rfl
  case xout => obtain ⟨_, _, _, ⟨_, _, _, rfl⟩ | ⟨_, rfl⟩⟩ := execXout_next.1 h <;> rfl
  case fxor => obtain ⟨_, rfl⟩ := execFxor_next.1 h; rfl
  case out => obtain ⟨_, rfl⟩ := execOut_next.1 h; rfl
  case done => rw [(execDone_next.1 h).2]
  case err => rw [(execErr_next.1 h).2]

/-- A step keeps the captured job, so the canonical form of its byte spaces. -/
theorem step_job (h : step s = .next t) : t.job = s.job := by
  obtain ⟨i, -, hi⟩ := step_next h
  exact exec_job hi

/-- No operation is refused. -/
theorem exec_not_refused (i : Instr) (s : State) (e : Refusal) : exec i s ≠ .refused e := by
  cases i <;> simp only [exec, execIdle, execKchk, execInit, execLdblk, execPack, execXin, execRnd, execXout, execFxor,
    execOut, execDone, execErr, withJob, withBytes, require] <;>
    (repeat' split) <;> simp

end Sys2Proof.Machine
end

