-- ==== Sys2Proof/Laws/HostPort.lean ====
section
/-! SUPPORT. What each host transaction can do, once: when SUBMIT goes on, and the state after any transaction. -/

namespace Sys2Proof.Machine

variable {s t : State}

theorem quiescent_iff :
    quiescent s = true ↔ s.seq = 0x0#4 ∨ s.seq = 0xA#4 ∨ s.seq = 0xB#4 := by
  simp [quiescent, idleFlag, doneFlag, errFlag, or_assoc]

/-- The sixteen codes: quiescent, busy, or reserved. -/
theorem quiescent_iff_not : quiescent s = true ↔ ¬ reservedSeq s = true ∧ ¬ busy s = true := by
  have all : ∀ c : OpCode, (c = 0x0#4 ∨ c = 0xA#4 ∨ c = 0xB#4) ↔
      (¬ 0xC#4 ≤ c ∧ ¬ (0x1#4 ≤ c ∧ c ≤ 0x9#4)) := by decide
  rw [quiescent_iff, all]
  simp [reservedSeq, busy]

/-- What is asked of a state with no reserved code, every transaction but RESET asks first (30_encoding.md R78). -/
theorem whenNamed_next {α : Type} {k : Host.Outcome α Fault Refusal} {a : α} :
    whenNamed s k = .next a ↔ reservedSeq s = false ∧ s.stg ≠ Stage.reserved ∧ k = .next a := by
  unfold whenNamed reservedStg
  split
  · simp [*]
  · split <;> simp_all

theorem whenNamed_named {α : Type} {k : Host.Outcome α Fault Refusal} (h : reservedSeq s = false)
    (hs : s.stg ≠ Stage.reserved) : whenNamed s k = k := by
  rw [whenNamed, if_neg (by simp [h]), if_neg (by simpa [reservedStg] using hs)]

theorem whenNamed_reservedStage {α : Type} {k : Host.Outcome α Fault Refusal}
    (h : reservedSeq s = false) (hs : s.stg = Stage.reserved) :
    whenNamed s k = .fault .reservedStage := by
  rw [whenNamed, if_neg (by simp [h]), if_pos (by simpa [reservedStg] using hs)]

theorem submit_next {j : JobDescriptor} : submit j s = .next t ↔ quiescent s = true ∧
    s.stg ≠ Stage.reserved ∧ j.wf ∧ t = goto .kchk { s with job := some j } := by
  rw [quiescent_iff_not, submit, whenNamed_next]
  split
  · simp [*]
  · split
    · next hw => simp [*, eq_comm (a := t)]; exact fun _ _ _ => hw
    · simp [*]

/-- A transaction that goes on captures a job, resets, or leaves the state as it is. -/
theorem act_host_next {r : HostRequest} (h : act (.host r) s = .next t) :
    (∃ j, r = .submit j ∧ submit j s = .next t) ∨ (r = .reset ∧ t = State.reset) ∨
      ((r = .readStatus ∨ r = .readDigest) ∧ t = s) := by
  cases r <;> simp only [act, hostStep] at h
  case submit j =>
    refine Or.inl ⟨j, rfl, ?_⟩
    cases hs : submit j s <;> simp [hs] at h ⊢
    exact h
  case readStatus =>
    cases hs : readStatus s <;> simp [hs] at h ⊢
    exact h.symm
  case readDigest =>
    cases hs : readDigest s <;> simp [hs] at h ⊢
    exact h.symm
  case reset =>
    simp at h ⊢
    exact h.symm

/-- No move takes a captured job that is not a descriptor: every byte space keeps its canonical form. -/
theorem act_keeps_spaces {mv : Move} (hw : ∀ j, s.job = some j → j.wf)
    (h : act mv s = .next t) : ∀ j, t.job = some j → j.wf ∧ j.key.wf ∧ j.data.wf := by
  have key : ∀ j, t.job = some j → j.wf := by
    cases mv with
    | engine => exact fun j hj => hw j (step_job h ▸ hj)
    | host r =>
      rcases act_host_next h with ⟨j, -, hs⟩ | ⟨-, rfl⟩ | ⟨-, rfl⟩
      · obtain ⟨-, -, hj, rfl⟩ := submit_next.1 hs
        exact fun j' hj' => Option.some.inj hj' ▸ hj
      · exact fun j hj => by simp at hj
      · exact hw
  exact fun j hj => ⟨key j hj, Memory.covers_wf (key j hj).1, Memory.covers_wf (key j hj).2⟩

end Sys2Proof.Machine
end

