-- ==== Sys2Proof/Laws/Invariant.lean ====
section
/-! SUPPORT. The control invariant read off at each operation: with the engine at an operation, `ControlInv` is one short
fact about the job and the control registers. -/

namespace Sys2Proof.Machine

/-- What the control invariant says at an operation, for the captured job. -/
def controlFact (i : Instr) (j : JobDescriptor) (s : State) : Prop :=
  match i with
  | .idle | .kchk => s.stg ≠ 3#2
  | .init => s.stg ≠ 3#2 ∧ j.keyLen = 16
  | .ldblk => j.keyLen = 16 ∧ s.stg = 0#2 ∧ s.off % 8 = 0 ∧ s.off + 8 ≤ j.dataLen
  | .pack => j.keyLen = 16 ∧ s.stg = 0#2 ∧ s.off = 8 * (j.dataLen / 8)
  | .xin => j.keyLen = 16 ∧
      ((s.stg = 0#2 ∧ s.off % 8 = 0 ∧ 8 ≤ s.off ∧ s.off ≤ j.dataLen) ∨
        (s.stg = 1#2 ∧ s.off = j.dataLen))
  | .rnd => j.keyLen = 16 ∧ s.rc ≠ 0#3 ∧ s.rc ≤ burstLength s.stg ∧
      ((s.stg = 0#2 ∧ s.off % 8 = 0 ∧ 8 ≤ s.off ∧ s.off ≤ j.dataLen) ∨
        ((s.stg = 1#2 ∨ s.stg = 2#2) ∧ s.off = j.dataLen))
  | .xout => j.keyLen = 16 ∧ s.rc = 0#3 ∧
      ((s.stg = 0#2 ∧ s.off % 8 = 0 ∧ 8 ≤ s.off ∧ s.off ≤ j.dataLen) ∨
        (s.stg = 1#2 ∧ s.off = j.dataLen))
  | .fxor => j.keyLen = 16 ∧ s.stg = 1#2 ∧ s.off = j.dataLen
  | .out => j.keyLen = 16 ∧ s.rc = 0#3 ∧ s.stg = 2#2 ∧ s.off = j.dataLen
  | .done => s.stg ≠ 3#2 ∧ j.keyLen = 16
  | .err => s.stg ≠ 3#2 ∧ j.keyLen ≠ 16

theorem stage_cases : ∀ c : BitVec 2, c ≠ 3#2 → c = 0#2 ∨ c = 1#2 ∨ c = 2#2 := by decide

/-- From the fact at the operation back to the invariant. -/
theorem controlInv_of_at {i : Instr} {j : JobDescriptor} {s : State} (hi : s.seq = encode i)
    (hj : s.job = some j) (hw : j.wf) (h : controlFact i j s) : ControlInv s := by
  have hjj : ∀ {P : JobDescriptor → Prop}, P j → ∀ j', s.job = some j' → P j' := by
    intro P hp j' h'
    rw [hj] at h'
    exact Option.some.inj h' ▸ hp
  have hd : ∀ j', s.job = some j' → j'.wf := hjj hw
  have hh : s.seq ≠ encode .idle → s.job.isSome := fun _ => by simp [hj]
  clear hw
  cases i <;> simp only [controlFact] at h
  case idle =>
    refine ⟨?_, ?_, hjj ?_, hjj ?_, hjj ?_, hjj ?_, hjj ?_, ?_, ?_, ?_, hd, hh, ?_, ?_, ?_, hjj ?_,
      hjj ?_⟩ <;> simp [State.atOp, hi, show ¬ s.stg = 3#2 from h]
  case kchk =>
    refine ⟨?_, ?_, hjj ?_, hjj ?_, hjj ?_, hjj ?_, hjj ?_, ?_, ?_, ?_, hd, hh, ?_, ?_, ?_, hjj ?_,
      hjj ?_⟩ <;> simp [State.atOp, hi, show ¬ s.stg = 3#2 from h]
  case init =>
    refine ⟨?_, ?_, hjj ?_, hjj ?_, hjj ?_, hjj ?_, hjj ?_, ?_, ?_, ?_, hd, hh, ?_, ?_, ?_, hjj ?_,
      hjj ?_⟩ <;> simp [State.atOp, hi, h]
  case ldblk =>
    obtain ⟨hk, h0, h8, hl⟩ := h
    refine ⟨?_, ?_, hjj ?_, hjj ?_, hjj ?_, hjj ?_, hjj ?_, ?_, ?_, ?_, hd, hh, ?_, ?_, ?_, hjj ?_,
      hjj ?_⟩ <;> simp [State.atOp, hi, hk, h0, h8, hl]
    omega
  case pack =>
    obtain ⟨hk, h0, ho⟩ := h
    refine ⟨?_, ?_, hjj ?_, hjj ?_, hjj ?_, hjj ?_, hjj ?_, ?_, ?_, ?_, hd, hh, ?_, ?_, ?_, hjj ?_,
      hjj ?_⟩ <;> simp [State.atOp, hi, hk, h0, ho] <;> omega
  case xin =>
    obtain ⟨hk, ⟨h0, h8, hb, hl⟩ | ⟨h1, hl⟩⟩ := h
    · refine ⟨?_, ?_, hjj ?_, hjj ?_, hjj ?_, hjj ?_, hjj ?_, ?_, ?_, ?_, hd, hh, ?_, ?_, ?_, hjj ?_,
        hjj ?_⟩ <;> simp [State.atOp, hi, hk, h0, h8, hb, hl]
    · refine ⟨?_, ?_, hjj ?_, hjj ?_, hjj ?_, hjj ?_, hjj ?_, ?_, ?_, ?_, hd, hh, ?_, ?_, ?_, hjj ?_,
        hjj ?_⟩ <;> simp [State.atOp, hi, hk, h1, hl]
  case rnd =>
    obtain ⟨hk, hr, hb', ⟨h0, h8, hb, hl⟩ | ⟨h1, hl⟩⟩ := h
    · refine ⟨?_, ?_, hjj ?_, hjj ?_, hjj ?_, hjj ?_, hjj ?_, ?_, ?_, ?_, hd, hh, ?_, ?_, ?_, hjj ?_,
        hjj ?_⟩ <;> simp [State.atOp, hi, hk, h0, h8, hb, hl, hr]
      simpa [h0] using hb'
    · refine ⟨?_, ?_, hjj ?_, hjj ?_, hjj ?_, hjj ?_, hjj ?_, ?_, ?_, ?_, hd, hh, ?_, ?_, ?_, hjj ?_,
        hjj ?_⟩ <;> rcases h1 with h1 | h1 <;> simp [State.atOp, hi, hk, h1, hl, hr]
      all_goals simpa [h1] using hb'
  case xout =>
    obtain ⟨hk, hr, ⟨h0, h8, hb, hl⟩ | ⟨h1, hl⟩⟩ := h
    · refine ⟨?_, ?_, hjj ?_, hjj ?_, hjj ?_, hjj ?_, hjj ?_, ?_, ?_, ?_, hd, hh, ?_, ?_, ?_, hjj ?_,
        hjj ?_⟩ <;> simp [State.atOp, hi, hk, h0, h8, hb, hl, hr]
    · refine ⟨?_, ?_, hjj ?_, hjj ?_, hjj ?_, hjj ?_, hjj ?_, ?_, ?_, ?_, hd, hh, ?_, ?_, ?_, hjj ?_,
        hjj ?_⟩ <;> simp [State.atOp, hi, hk, h1, hl, hr]
  case fxor =>
    obtain ⟨hk, h1, hl⟩ := h
    refine ⟨?_, ?_, hjj ?_, hjj ?_, hjj ?_, hjj ?_, hjj ?_, ?_, ?_, ?_, hd, hh, ?_, ?_, ?_, hjj ?_,
      hjj ?_⟩ <;> simp [State.atOp, hi, hk, h1, hl]
  case out =>
    obtain ⟨hk, hr, h1, hl⟩ := h
    refine ⟨?_, ?_, hjj ?_, hjj ?_, hjj ?_, hjj ?_, hjj ?_, ?_, ?_, ?_, hd, hh, ?_, ?_, ?_, hjj ?_,
      hjj ?_⟩ <;> simp [State.atOp, hi, hk, h1, hl, hr]
  case done =>
    refine ⟨?_, ?_, hjj ?_, hjj ?_, hjj ?_, hjj ?_, hjj ?_, ?_, ?_, ?_, hd, hh, ?_, ?_, ?_, hjj ?_,
      hjj ?_⟩ <;> simp [State.atOp, hi, h]
  case err =>
    refine ⟨?_, ?_, hjj ?_, hjj ?_, hjj ?_, hjj ?_, hjj ?_, ?_, ?_, ?_, hd, hh, ?_, ?_, ?_, hjj ?_,
      hjj ?_⟩ <;> simp [State.atOp, hi, h]

/-- In IDLE the invariant asks only for a named stage, and that a held descriptor be one. -/
theorem controlInv_of_idle {s : State} (hi : s.seq = encode .idle) (hs : s.stg ≠ Stage.reserved)
    (hw : ∀ j, s.job = some j → j.wf) : ControlInv s := by
  cases hj : s.job with
  | some j => exact controlInv_of_at hi hj (hw j hj) hs
  | none =>
    refine ⟨?_, hs, ?_, ?_, ?_, ?_, ?_, ?_, ?_, ?_, ?_, ?_, ?_, ?_, ?_, ?_, ?_⟩ <;>
      simp [State.atOp, hi, hj]

/-- The invariant at an operation gives the fact there. -/
theorem ControlInv.at {i : Instr} {j : JobDescriptor} {s : State} (h : ControlInv s)
    (hi : s.seq = encode i) (hj : s.job = some j) : controlFact i j s := by
  have hk := h.keyChecked j hj
  have hb := h.blockOffset j hj
  have hc := h.consumed j hj
  have hs := h.stageNamed
  have hr := h.blockRead
  simp only [hi, stage_block, stage_tail, stage_final] at hk hb hc hr
  cases i <;> simp only [controlFact] <;> simp only [encode] at hk hb hc hr
  case idle => exact hs
  case kchk => exact hs
  case init => exact ⟨hs, hk (by decide) (by decide)⟩
  case ldblk =>
    obtain ⟨h0, hl⟩ := h.loadInRange j hj hi
    exact ⟨hk (by decide) (by decide), h0, (hb (by decide) (by decide) h0).1, hl⟩
  case pack =>
    obtain ⟨h0, ho, -⟩ := h.packAtHead j hj hi
    exact ⟨hk (by decide) (by decide), h0, ho⟩
  case xin =>
    refine ⟨hk (by decide) (by decide), ?_⟩
    rcases h.absorbing hi with h0 | h1
    · exact Or.inl ⟨h0, (hb (by decide) (by decide) h0).1, hr (by decide) (by decide) h0,
        (hb (by decide) (by decide) h0).2⟩
    · exact Or.inr ⟨h1, hc (by decide) (by decide) (Or.inl h1)⟩
  case rnd =>
    refine ⟨hk (by decide) (by decide), (h.roundsLeft hi).1, (h.roundsLeft hi).2, ?_⟩
    rcases stage_cases _ hs with h0 | h1 | h2
    · exact Or.inl ⟨h0, (hb (by decide) (by decide) h0).1, hr (by decide) (by decide) h0,
        (hb (by decide) (by decide) h0).2⟩
    · exact Or.inr ⟨Or.inl h1, hc (by decide) (by decide) (Or.inl h1)⟩
    · exact Or.inr ⟨Or.inr h2, hc (by decide) (by decide) (Or.inr h2)⟩
  case xout =>
    obtain ⟨h0r, hst⟩ := h.xoutArmed hi
    refine ⟨hk (by decide) (by decide), h0r, ?_⟩
    rcases hst with h0 | h1
    · exact Or.inl ⟨h0, (hb (by decide) (by decide) h0).1, hr (by decide) (by decide) h0,
        (hb (by decide) (by decide) h0).2⟩
    · exact Or.inr ⟨h1, hc (by decide) (by decide) (Or.inl h1)⟩
  case fxor =>
    have h1 := h.armedFinal hi
    exact ⟨hk (by decide) (by decide), h1, hc (by decide) (by decide) (Or.inl h1)⟩
  case out =>
    obtain ⟨h0r, h2⟩ := h.outFinal hi
    exact ⟨hk (by decide) (by decide), h0r, h2, hc (by decide) (by decide) (Or.inr h2)⟩
  case done => exact ⟨hs, h.doneKey j hj hi⟩
  case err => exact ⟨hs, h.errKey j hj hi⟩

/-- Under the invariant the engine is at one of the twelve operations. -/
theorem ControlInv.atSome {s : State} (h : ControlInv s) : ∃ i, s.seq = encode i := by
  have all : ∀ c : OpCode, c ≤ 0xB#4 → (match decode c with
      | .ok _ => true
      | .error _ => false) = true := by decide
  have := all _ h.named
  split at this
  · next i hd => exact ⟨i, (encode_of_decode hd).symm⟩
  · simp at this

end Sys2Proof.Machine
end

