-- ==== Sys2Proof/Laws/PerInstr.lean ====
section
/-! SUPPORT. What holds of every operation's code, made per operation. -/

namespace Sys2Proof.Laws.Encoding

/-- The code of an operation is one of the twelve named ones (30_encoding.md R71, R78), and the operation table's word of
it decodes to the operation. -/
def Statement (i : Instr) : Prop :=
  encode i ≤ 0xB#4 ∧ decodeTableWord 4 (encode i).toNat = some i

theorem idle : Statement .idle := ⟨by decide, rfl⟩
theorem kchk : Statement .kchk := ⟨by decide, rfl⟩
theorem init : Statement .init := ⟨by decide, rfl⟩
theorem ldblk : Statement .ldblk := ⟨by decide, rfl⟩
theorem pack : Statement .pack := ⟨by decide, rfl⟩
theorem xin : Statement .xin := ⟨by decide, rfl⟩
theorem rnd : Statement .rnd := ⟨by decide, rfl⟩
theorem xout : Statement .xout := ⟨by decide, rfl⟩
theorem fxor : Statement .fxor := ⟨by decide, rfl⟩
theorem out : Statement .out := ⟨by decide, rfl⟩
theorem done : Statement .done := ⟨by decide, rfl⟩
theorem err : Statement .err := ⟨by decide, rfl⟩

end Sys2Proof.Laws.Encoding
end

