-- ==== Sys2Proof/Laws/Runs.lean ====
section
/-! SUPPORT. Runs of the engine: a chain of operations with what it executes and reads, from which `runEngine`, `trace` and
`bytesRead` follow at once; and the two fixed brackets of a job, absorbing a word and finalising. -/

namespace Sys2Proof.Machine

/-- The engine goes from `s` to `t` in `n` operations, every one of them a busy one: it executes `ops` and reads `reads`. -/
inductive Runs : Nat → State → List Instr → List (Space × Nat) → State → Prop where
  | nil (s : State) : Runs 0 s [] [] s
  | cons {n : Nat} {s u t : State} {i : Instr} {ops : List Instr} {reads : List (Space × Nat)}
      (hi : s.seq = encode i) (hb : busy s = true) (he : exec i s = .next u)
      (h : Runs n u ops reads t) : Runs (n + 1) s (i :: ops) (byteReads i s ++ reads) t

theorem Runs.append {n m : Nat} {s u t : State} {ops ops' : List Instr}
    {reads reads' : List (Space × Nat)} (h : Runs n s ops reads u) (h' : Runs m u ops' reads' t) :
    Runs (n + m) s (ops ++ ops') (reads ++ reads') t := by
  induction h with
  | nil => simpa using h'
  | cons hi hb he _ ih =>
    rw [Nat.add_right_comm, List.append_assoc]
    exact Runs.cons hi hb he (ih h')

theorem Runs.runEngine {n : Nat} {s t : State} {ops : List Instr} {reads : List (Space × Nat)}
    (h : Runs n s ops reads t) : Machine.runEngine n s = .next t := by
  induction h with
  | nil => rfl
  | cons hi _ he _ ih => simp [Machine.runEngine, step_atOp hi, he, ih]

theorem Runs.trace {n : Nat} {s t : State} {ops : List Instr} {reads : List (Space × Nat)}
    (h : Runs n s ops reads t) : Machine.trace n s = ops := by
  induction h with
  | nil => rfl
  | cons hi _ he _ ih => simp [Machine.trace, hi, step_atOp hi, he, ih]

theorem Runs.bytesRead {n : Nat} {s t : State} {ops : List Instr} {reads : List (Space × Nat)}
    (h : Runs n s ops reads t) : Machine.bytesRead n s = reads := by
  induction h with
  | nil => rfl
  | cons hi _ he _ ih => simp [Machine.bytesRead, hi, step_atOp hi, he, ih]

theorem Runs.length {n : Nat} {s t : State} {ops : List Instr} {reads : List (Space × Nat)}
    (h : Runs n s ops reads t) : ops.length = n := by
  induction h with
  | nil => rfl
  | cons _ _ _ _ ih => simp [ih]

/-- Before its last operation the engine is busy. -/
theorem Runs.busyBefore {n : Nat} {s t : State} {ops : List Instr} {reads : List (Space × Nat)}
    (h : Runs n s ops reads t) (k : Nat) (hk : k < n) :
    ∃ u, Machine.runEngine k s = .next u ∧ busy u = true := by
  induction h generalizing k with
  | nil => omega
  | @cons n s u t i ops reads hi hb he _ ih =>
    cases k with
    | zero => exact ⟨s, rfl, hb⟩
    | succ k =>
      obtain ⟨w, hw, hbw⟩ := ih k (by omega)
      exact ⟨w, by simp [Machine.runEngine, step_atOp hi, he, hw], hbw⟩

/-- One more busy operation that reads no byte. -/
theorem Runs.cons' {n : Nat} {s u t : State} {i : Instr} {ops : List Instr}
    {reads : List (Space × Nat)} (hi : s.seq = encode i) (hb : busy s = true)
    (hr : byteReads i s = []) (he : exec i s = .next u) (h : Runs n u ops reads t) :
    Runs (n + 1) s (i :: ops) reads t := by
  have := Runs.cons hi hb he h
  rwa [hr, List.nil_append] at this

/-- A burst of rounds down to `rc = 0`: `rc` rounds in a stage whose burst is at least that long. -/
theorem runs_burst (n : Nat) (s : State) (hi : s.seq = encode .rnd) (hs : s.stg ≠ Stage.reserved)
    (hn : s.rc.toNat = n + 1) (hb : s.rc ≤ burstLength s.stg) :
    Runs (n + 1) s (List.replicate (n + 1) .rnd) []
      (goto (roundSuccessor 0 s.stg) { s with v := sipRounds (n + 1) s.v, rc := 0 }) := by
  have hbusy : busy s = true := by simp [busy, hi]
  have hr : s.rc ≠ 0 := by
    intro h
    simp [h] at hn
  have he := execRnd_next.2 ⟨hs, ⟨hr, hb⟩, rfl⟩
  induction n generalizing s with
  | zero =>
    have h1 : s.rc - 1 = 0 := by
      apply BitVec.eq_of_toNat_eq
      simp [BitVec.toNat_sub, hn]
    rw [h1] at he
    exact Runs.cons' hi hbusy rfl he (Runs.nil _)
  | succ n ih =>
    have hn' : (s.rc - 1).toNat = n + 1 := by
      have := s.rc.isLt
      simp only [BitVec.toNat_sub]
      simp only [BitVec.ofNat_eq_ofNat, BitVec.toNat_ofNat]
      omega
    have hr' : s.rc - 1 ≠ 0 := by
      intro h
      rw [h] at hn'
      exact absurd hn' (Nat.succ_ne_zero n).symm
    have hb' : s.rc - 1 ≤ burstLength s.stg := by
      refine BitVec.le_trans ?_ hb
      have := s.rc.isLt
      rw [BitVec.le_def, hn', hn]
      omega
    have hsucc : roundSuccessor (s.rc - 1) s.stg = .rnd := if_pos hr'
    rw [hsucc] at he
    have h' := ih (goto .rnd { s with v := sipRound s.v, rc := s.rc - 1 }) rfl hs hn' hb'
      rfl hr' (execRnd_next.2 ⟨hs, ⟨hr', hb'⟩, rfl⟩)
    exact Runs.cons' hi hbusy rfl he h'

/-- `COMPRESS` (30_encoding.md R82, 42_compress.md R133): from `XIN` in stage BLOCK or TAIL the accumulator becomes
`compress(v, m)`, `rc` is 0, and `XOUT`'s successor follows. -/
theorem runs_compress (s : State) (j : JobDescriptor) (hi : s.seq = encode .xin)
    (hs : s.stg = Stage.block ∨ s.stg = Stage.tail) (hj : s.stg = Stage.block → s.job = some j) :
    Runs 4 s compressOps []
      (goto (if s.stg = Stage.block then blockSuccessor s.off j.dataLen else .fxor)
        { s with v := compress s.v s.m, rc := 0 }) := by
  have n3 : s.stg ≠ Stage.reserved := by rcases hs with h | h <;> simp [h]
  have n2 : s.stg ≠ Stage.final := by rcases hs with h | h <;> simp [h]
  have hb : burstLength s.stg = 2#3 := by simp [burstLength, show ¬ s.stg = 2#2 from n2]
  have hx := execXin_next.2 ⟨n3, n2, rfl⟩
  have hr := runs_burst 1 (goto .rnd { s with v := s.v.xorV3 s.m, rc := Config.cRounds }) rfl n3 rfl
    (by show (2#3 : BitVec 3) ≤ burstLength s.stg; rw [hb]; decide)
  have hsucc : roundSuccessor 0 s.stg = .xout := by
    simp [roundSuccessor, show ¬ s.stg = 2#2 from n2]
  simp only [goto_stg, hsucc] at hr
  refine Runs.cons' hi (by simp [busy, hi]) rfl hx (hr.append (m := 1) (ops' := [.xout])
    (reads' := []) (Runs.cons' rfl rfl rfl ?_ (Runs.nil _)))
  refine execXout_next.2 ⟨n3, n2, rfl, ?_⟩
  rcases hs with h | h
  · exact Or.inl ⟨j, h, hj h, by simp [h]; rfl⟩
  · exact Or.inr ⟨by simp [h], by simp [h]; rfl⟩

/-- `ABSORB` (30_encoding.md R82): from `LDBLK` in stage BLOCK the next block is read and absorbed. -/
theorem runs_absorb (s : State) (j : JobDescriptor) (hi : s.seq = encode .ldblk)
    (hs : s.stg = Stage.block) (hj : s.job = some j) (hw : j.wf) (hl : s.off + 8 ≤ j.dataLen) :
    Runs 5 s absorbOps ((List.range' s.off 8).map (Space.msg, ·))
      (goto (blockSuccessor (s.off + 8) j.dataLen)
        { s with
          v := compress s.v (le64 ((j.dataBytes.drop s.off).take 8))
          m := le64 ((j.dataBytes.drop s.off).take 8)
          rc := 0
          off := s.off + 8 }) := by
  have he := execLdblk_next.2 ⟨j, _, by simp [hs], hj, hl, memRead_wf hw hl, rfl⟩
  have h := runs_compress
    (goto .xin { s with m := le64 ((j.dataBytes.drop s.off).take 8), off := s.off + 8 }) j rfl
    (Or.inl hs) (fun _ => hj)
  have := Runs.cons (i := .ldblk) hi (by simp [busy, hi]) he h
  simpa [absorbOps, byteReads, hj, hs, goto] using this

/-- `TAIL` (30_encoding.md R82): from `PACK` at the head the tail word is built and absorbed. -/
theorem runs_tail (s : State) (j : JobDescriptor) (hi : s.seq = encode .pack)
    (hs : s.stg = Stage.block) (hj : s.job = some j) (hw : j.wf)
    (ho : s.off = 8 * (j.dataLen / 8)) :
    Runs 5 s tailOps ((List.range' s.off (j.dataLen - s.off)).map (Space.msg, ·))
      (goto .fxor
        { s with
          v := compress s.v (lastWord j.dataBytes)
          m := lastWord j.dataBytes
          rc := 0
          stg := Stage.tail
          off := j.dataLen }) := by
  have hlen := JobDescriptor.dataBytes_length hw
  have hm : s.off + (j.dataLen - s.off) ≤ j.dataLen := by omega
  have he := execPack_next.2
    ⟨j, _, by simp [hs], hj, by omega, by omega, memRead_wf hw hm, rfl⟩
  have hb : ((spaceBytes j .msg).drop s.off).take (j.dataLen - s.off) =
      j.dataBytes.drop (8 * (j.dataBytes.length / 8)) := by
    rw [hlen, ← ho]
    exact List.take_of_length_le (by simp [hlen, spaceBytes])
  rw [hb] at he
  have h := runs_compress
    (goto .xin
      { s with
        m := tailWord j.dataLen (j.dataBytes.drop (8 * (j.dataBytes.length / 8)))
        off := j.dataLen
        stg := Stage.tail })
    j rfl (Or.inr rfl) (fun _ => hj)
  have := Runs.cons (i := .pack) hi (by simp [busy, hi]) he h
  simpa [tailOps, byteReads, hj, goto, lastWord, hlen] using this

/-- `FINALIZE` (30_encoding.md R82, 44_finalize.md R162): from `FXOR` the digest becomes `finalize(v)` and the engine is in
DONE. -/
theorem runs_finalize (s : State) (hi : s.seq = encode .fxor) (hs : s.stg ≠ Stage.reserved) :
    ∃ t, Runs 6 s finalizeOps [] t ∧ t.seq = encode .done ∧ t.digest = finalize s.v ∧
      t.job = s.job ∧ t.stg = Stage.final := by
  have hx := execFxor_next.2 ⟨hs, rfl⟩
  have hr := runs_burst 3 (goto .rnd
    { s with v := s.v.xorV2 Config.finalConst, stg := Stage.final, rc := Config.dRounds })
    rfl (by simp) rfl (by simp [burstLength])
  have hsucc : roundSuccessor 0 Stage.final = .out := rfl
  simp only [goto_stg, hsucc] at hr
  have ho (u : State) (hu : u.seq = encode .out) (hs : u.stg ≠ Stage.reserved) :
      Runs 1 u [.out] [] (goto .done { u with digest := u.v.fold }) :=
    Runs.cons' hu (by simp [busy, hu]) rfl (execOut_next.2 ⟨hs, rfl⟩) (Runs.nil _)
  exact ⟨_, Runs.cons' hi (by simp [busy, hi]) rfl hx (hr.append (ho _ rfl (by simp))), rfl, rfl,
    rfl, rfl⟩

end Sys2Proof.Machine
end

