-- ==== Sys2Proof/Laws/Words.lean ====
section
/-! SUPPORT. Words bit by bit: where a byte of `LE64` and of the tail word lands, what a rotation moves, and that
SipRound is undone by its inverse steps. -/

namespace Sys2Proof.Machine

/-- Bit `k` of `LE64` is bit `k mod 8` of byte `k div 8` (00_scope.md R10, R11). -/
theorem le64_getLsbD (bs : List Byte) (k : Nat) :
    (le64 bs).getLsbD k = (decide (k < 64) && ((bs[k / 8]?).getD 0).getLsbD (k % 8)) := by
  induction bs generalizing k with
  | nil => simp [le64]
  | cons b bs ih =>
    simp only [le64, BitVec.getLsbD_or, BitVec.getLsbD_setWidth, BitVec.getLsbD_shiftLeft, ih]
    by_cases h : k < 8
    · simp [h, Nat.div_eq_of_lt h, Nat.mod_eq_of_lt h]
    · have hb : b.getLsbD k = false := BitVec.getLsbD_of_ge _ _ (by omega)
      have hd : k / 8 = (k - 8) / 8 + 1 := by omega
      have hm : (k - 8) % 8 = k % 8 := by omega
      by_cases hk : k < 64
      · simp [h, hb, hd, hm, hk, show k - 8 < 64 by omega]
      · simp [h, hb, hk]

/-- Byte lane `i` of `LE64` is byte `i` (00_scope.md R10, R11). -/
theorem le64_lane (bs : List Byte) (i : Nat) (hi : i < 8) :
    (le64 bs).extractLsb' (8 * i) 8 = (bs[i]?).getD 0 := by
  ext k hk
  rw [BitVec.getElem_extractLsb', le64_getLsbD]
  simp [show (8 * i + k) / 8 = i by omega, show (8 * i + k) % 8 = k by omega,
    show 8 * i + k < 64 by omega]
  rw [BitVec.getLsbD_eq_getElem]

/-- The length byte stands in bits 63:56 and every other bit is 0 (30_encoding.md R75). -/
theorem lengthByteWord_getLsbD (len k : Nat) :
    (lengthByteWord len).getLsbD k = (decide (56 ≤ k ∧ k < 64) && (len % 256).testBit (k - 56)) := by
  simp only [lengthByteWord, BitVec.getLsbD_shiftLeft, BitVec.getLsbD_ofNat]
  by_cases h : k < 64
  · by_cases h' : 56 ≤ k
    · simp [h, h', show k - 56 < 64 by omega, show ¬ k < 56 by omega]
    · simp [h, h', show k < 56 by omega]
  · simp [h]

/-- Byte lanes of the tail word (30_encoding.md R75): the length byte in lane 7, the tail bytes below it. -/
theorem tailWord_lane (len : Nat) (tail : List Byte) (ht : tail.length ≤ 7) (i : Nat) (hi : i < 8) :
    (tailWord len tail).extractLsb' (8 * i) 8 =
      if i = 7 then BitVec.ofNat 8 (len % 256) else (tail[i]?).getD 0 := by
  ext k hk
  simp only [BitVec.getElem_extractLsb', tailWord, BitVec.getLsbD_or, lengthByteWord_getLsbD,
    le64_getLsbD]
  simp only [show (8 * i + k) / 8 = i by omega, show (8 * i + k) % 8 = k by omega,
    show 8 * i + k < 64 by omega, decide_true, Bool.true_and, and_true]
  split
  · next h =>
    subst h
    rw [List.getElem?_eq_none (by omega)]
    rw [← BitVec.getLsbD_eq_getElem, BitVec.getLsbD_ofNat]
    simp [show 8 * 7 + k - 56 = k by omega, hk]
  · next h =>
    simp [show ¬ 56 ≤ 8 * i + k by omega, BitVec.getLsbD_eq_getElem hk]

/-- Bit `k` of a rotation (45_sipround.md R177). -/
theorem rotl64_getLsbD (x : Word) (n k : Nat) (h0 : 0 < n) (hn : n < 64) (hk : k < 64) :
    (rotl64 x n).getLsbD k = x.getLsbD ((k + 64 - n) % 64) := by
  simp only [rotl64, BitVec.getLsbD_or, BitVec.getLsbD_shiftLeft, BitVec.getLsbD_ushiftRight]
  by_cases h : k < n
  · have : (k + 64 - n) % 64 = 64 - n + k := by omega
    simp [h, this]
  · have hm : (k + 64 - n) % 64 = k - n := by omega
    have : x.getLsbD (64 - n + k) = false := BitVec.getLsbD_of_ge _ _ (by omega)
    simp [h, hm, hk, this]

/-- Rotations by `n` and `64 - n` undo each other (45_sipround.md R174). -/
theorem rotl64_rotl64 (x : Word) (n k : Nat) (h0 : 0 < n) (h : n + k = 64) (hk : 0 < k) :
    rotl64 (rotl64 x n) k = x := by
  refine BitVec.eq_of_getLsbD_eq fun i hi => ?_
  rw [rotl64_getLsbD _ _ _ hk (by omega) hi, rotl64_getLsbD _ _ _ h0 (by omega) (by omega)]
  congr 1
  omega

/-- One more round at the end of a burst. -/
theorem sipRounds_succ (n : Nat) (v : Acc) : sipRounds (n + 1) v = sipRound (sipRounds n v) := by
  induction n generalizing v with
  | zero => rfl
  | succ n ih => rw [sipRounds, ih, sipRounds]

end Sys2Proof.Machine
end

