-- ==== Sys2Proof/Tests/Slice0.lean ====
section
/-! SUPPORT. Tests. Expected values are those of spec/95_test_vectors.md (the section is named at each), which the spec
derives from its rules; the operation codes are written out from 30_encoding.md R71. At the end, for each obligation
with hypotheses, a concrete witness that meets them. -/

namespace Sys2Proof.Tests

open Sys2Proof Sys2Proof.Machine

/-! ## Helpers -/

def next? {α : Type} : Host.Outcome α Fault Refusal → Option α
  | .next a => some a
  | _ => none

def fault? {α : Type} : Host.Outcome α Fault Refusal → Option Fault
  | .fault f => some f
  | _ => none

def refusal? {α : Type} : Host.Outcome α Fault Refusal → Option Refusal
  | .refused e => some e
  | _ => none

/-- The reference key `00 01 .. 0f`. -/
def refKey : List Byte := (List.range 16).map (BitVec.ofNat 8)

/-- `n` message bytes, `data[i] = i mod 256`. -/
def ramp (n : Nat) : List Byte := (List.range n).map (BitVec.ofNat 8)

/-- The job with the reference key and the message of `n` ramp bytes. -/
def refJob (n : Nat) : JobDescriptor := .ofBytes refKey (ramp n)

/-- A small state: the operation, the job, and the control registers. -/
def at' (i : Instr) (j : JobDescriptor) (stg : BitVec 2) (rc : BitVec 3) (off : Nat) : State :=
  { State.reset with seq := encode i, job := some j, stg, rc, off }

/-- The same with an accumulator and a block word. -/
def with' (s : State) (v : Acc) (m : Word) : State := { s with v, m }

/-- The accumulator after `INIT` with the reference key (95 section 2.2). -/
def refAcc : Acc :=
  ⟨0x7469686173716475, 0x6b617f6d656e6665, 0x6b7f62616d677361, 0x7b6b696e727e6c7b⟩

/-- The accumulator before `FXOR` of program P2 (95 section 5). -/
def p2Acc : Acc :=
  ⟨0x3c85b3ab6f55be51, 0x414fc3fb98efe374, 0xccf13ea527b9f4bd, 0x5293f5da84008f82⟩

/-! ## WellFormed (10_state.md R30, 20_memory.md R50, R51) -/

theorem test_wf_accepts : (refJob 9).wf ∧ (JobDescriptor.ofBytes [] []).wf := by decide
theorem test_wf_refuses_missing_byte :
    ¬ (JobDescriptor.mk 2 [(0, 7)] 0 []).wf ∧ ¬ (JobDescriptor.mk 0 [] 1 []).wf := by decide
theorem test_wf_refuses_extra_byte :
    ¬ (JobDescriptor.mk 1 [(0, 7), (1, 8)] 0 []).wf ∧ ¬ (JobDescriptor.mk 0 [] 0 [(0, 8)]).wf := by
  decide
theorem test_wf_refuses_wrong_order :
    ¬ (JobDescriptor.mk 2 [(1, 7), (0, 8)] 0 []).wf ∧ ¬ (JobDescriptor.mk 0 [] 2 [(0, 8), (0, 8)]).wf := by
  decide
theorem test_memory_wf :
    Memory.wf [(0, 7), (2, 7)] ∧ ¬ Memory.wf [(2, 7), (0, 7)] ∧ ¬ Memory.wf [(2, 7), (2, 7)] := by decide
theorem test_instr_wf_is_total : Instr.wf .idle ∧ Instr.wf .err := by decide

/-! ## Decode (30_encoding.md R71, R78): each code written out, bits 3 to 0 -/

theorem test_decode_idle : decodeTableWord 4 0b0000 = some .idle := by decide
theorem test_decode_kchk : decodeTableWord 4 0b0001 = some .kchk := by decide
theorem test_decode_init : decodeTableWord 4 0b0010 = some .init := by decide
theorem test_decode_ldblk : decodeTableWord 4 0b0011 = some .ldblk := by decide
theorem test_decode_pack : decodeTableWord 4 0b0100 = some .pack := by decide
theorem test_decode_xin : decodeTableWord 4 0b0101 = some .xin := by decide
theorem test_decode_rnd : decodeTableWord 4 0b0110 = some .rnd := by decide
theorem test_decode_xout : decodeTableWord 4 0b0111 = some .xout := by decide
theorem test_decode_fxor : decodeTableWord 4 0b1000 = some .fxor := by decide
theorem test_decode_out : decodeTableWord 4 0b1001 = some .out := by decide
theorem test_decode_done : decodeTableWord 4 0b1010 = some .done := by decide
theorem test_decode_err : decodeTableWord 4 0b1011 = some .err := by decide
theorem test_decode_reserved : decodeTableWord 4 0b1100 = none ∧ decodeTableWord 4 0b1101 = none ∧
    decodeTableWord 4 0b1110 = none ∧ decodeTableWord 4 0b1111 = none := by decide

/-! ## Each operation (95 sections 2.1 to 2.7) -/

theorem test_kchk_16 :
    (next? (exec .kchk (at' .kchk (refJob 0) 0 0 0))).map (·.seq) = some 0x2#4 := by decide
theorem test_kchk_272 :
    (next? (exec .kchk (at' .kchk ⟨272, [], 0, []⟩ 0 0 0))).map (·.seq) = some 0xB#4 := by decide

theorem test_init_reference_key :
    (next? (exec .init (at' .init (refJob 8) 2 1 5))).map (fun t => (t.v, t.off, t.stg, t.seq)) =
      some (refAcc, 0, 0#2, 0x3#4) := by decide
theorem test_init_seven_bytes :
    (next? (exec .init (at' .init (refJob 7) 0 0 0))).map (·.seq) = some 0x4#4 := by decide

theorem test_ldblk_high_bytes :
    (next? (exec .ldblk (at' .ldblk
      (.ofBytes refKey [0x80, 0x81, 0x82, 0x83, 0x84, 0x85, 0x86, 0x87]) 0 0 0))).map
      (fun t => (t.m, t.off, t.seq)) = some (0x8786858483828180, 8, 0x5#4) := by decide
theorem test_ldblk_second_block :
    (next? (exec .ldblk (at' .ldblk (refJob 16) 0 0 8))).map (fun t => (t.m, t.off)) =
      some (0x0f0e0d0c0b0a0908, 16) := by decide

theorem test_pack_15 :
    (next? (exec .pack (at' .pack (refJob 15) 0 0 8))).map (fun t => (t.m, t.off, t.stg, t.seq)) =
      some (0x0f0e0d0c0b0a0908, 15, 1#2, 0x5#4) := by decide
theorem test_pack_17 :
    (next? (exec .pack (at' .pack (refJob 17) 0 0 16))).map (·.m) = some 0x1100000000000010 := by
  decide

/-- 95 section 2.4, row `L` = 65539: the low eight bits of the total length. -/
theorem test_tail_word_65539 : tailWord 65539 [0x11, 0x22, 0x33] = 0x0300000000332211 := by decide

theorem test_xin_v3 :
    (next? (exec .xin (with' (at' .xin (refJob 8) 0 0 8) refAcc 0x0706050403020100))).map
      (fun t => (t.v.v3, t.rc, t.seq)) = some (0x7c6d6c6a717c6d7b, 2#3, 0x6#4) := by decide

theorem test_rnd_row_16 :
    (next? (exec .rnd (with' (at' .rnd (refJob 8) 0 2 8)
      { refAcc with v3 := 0x7c6d6c6a717c6d7b } 0))).map (fun t => (t.v, t.rc, t.seq)) =
      some (⟨0x64668a929363847f, 0x4ed232083d9aa8dc, 0xf2f74892d8141a2e, 0x9290f9810552f4a8⟩,
        1#3, 0x6#4) := by decide
theorem test_rnd_last_of_final :
    (next? (exec .rnd (at' .rnd (refJob 8) 2 1 8))).map (fun t => (t.rc, t.seq)) =
      some (0#3, 0x9#4) := by decide

theorem test_xout_further_block :
    (next? (exec .xout (with' (at' .xout (refJob 16) 0 0 8)
      ⟨0x0123456789abcdef, 1, 2, 3⟩ 0x0f0e0d0c0b0a0908))).map (fun t => (t.v.v0, t.seq)) =
      some (0x0e2d486b82a1c4e7, 0x3#4) := by decide
theorem test_xout_no_further_block :
    (next? (exec .xout (at' .xout (refJob 15) 0 0 8))).map (·.seq) = some 0x4#4 := by decide

theorem test_fxor_v2 :
    (next? (exec .fxor (with' (at' .fxor (refJob 15) 1 0 15) p2Acc 0))).map
      (fun t => (t.v.v2, t.stg, t.rc, t.seq)) = some (0xccf13ea527b9f442, 2#2, 4#3, 0x6#4) := by
  decide

theorem test_out_digest :
    (next? (exec .out (with' (at' .out (refJob 15) 2 0 15)
      ⟨0xf6bcd53893fecff1, 0x54b9964c7ea0d937, 0x1b38329c099bb55a, 0x1814bb89ad7be679⟩ 0))).map
      (fun t => (t.digest, t.seq)) = some (0xa129ca6149be45e5, 0xA#4) := by decide

theorem test_idle_waits : (next? (step State.reset)).map (·.seq) = some 0x0#4 := by decide
theorem test_done_waits :
    (next? (step (at' .done (refJob 0) 2 0 0))).map (·.seq) = some 0xA#4 := by decide
theorem test_err_waits :
    (next? (step (at' .err ⟨0, [], 0, []⟩ 0 0 0))).map (·.seq) = some 0xB#4 := by decide

/-! ## The round function, the brackets and whole jobs (95 sections 2.6, 2.8, 3, 4) -/

theorem test_sipround_row_8 :
    sipRound ⟨0xffffffffffffffff, 1, 0xffffffffffffffff, 1⟩ =
      ⟨0x0000000000010000, 0x0000000040002000, 0x0000200000000000, 0x0000002000010000⟩ := by decide
theorem test_sipround_row_13_four_times :
    sipRounds 4 ⟨0x0123456789abcdef, 0xfedcba9876543210, 0x0f1e2d3c4b5a6978, 0x8796a5b4c3d2e1f0⟩ =
      ⟨0x3799064ed772237e, 0x3c0873e23faf5f51, 0x0c8dcd4526fa8e7c, 0x1c2cc4a21a27c2b8⟩ := by decide
theorem test_compress_tail_of_p2 :
    compress ⟨0x4a017198de0a59e0, 0x0d52f6f62a4f59a4, 0x634cb3577b01fd3d, 0xa5224d6f55c7d9c8⟩
      0x0f0e0d0c0b0a0908 = p2Acc := by decide
theorem test_finalize_p2 : finalize p2Acc = 0xa129ca6149be45e5 := by decide
theorem test_sum64_empty : sum64 refKey [] = some 0x726fdb47dd0e0e31 := by decide
theorem test_sum64_nine_bytes : sum64 refKey (ramp 9) = some 0x9e0082df0ba9e4b0 := by decide
theorem test_sum64_fifteen_bytes : sum64 refKey (ramp 15) = some 0xa129ca6149be45e5 := by decide

/-- 95 section 4: what the rejected reading of the constants would give; the configuration record is what decides. -/
theorem test_init_rejected_constants :
    initAcc ⟨0x75657370656d6f73, 0x6d6f646e61726f64, 0x6172656e6567796c, 0x7365747962646574⟩
      0x0706050403020100 0x0f0e0d0c0b0a0908 =
      ⟨0x72637674666f6e73, 0x626169626a78666c, 0x6674606a6665786c, 0x7c6b7975696e6c7c⟩ := by decide

theorem test_operation_sequence_nine_bytes :
    sum64Ops 16 9 = [.kchk, .init, .ldblk, .xin, .rnd, .rnd, .xout, .pack, .xin, .rnd, .rnd, .xout,
      .fxor, .rnd, .rnd, .rnd, .rnd, .out] := by decide

/-! ## Stops (30_encoding.md R78, R79; 95 sections 2.6, 2.10) -/

theorem test_rnd_three_rounds_in_block :
    fault? (exec .rnd (at' .rnd (refJob 8) 0 3 8)) = some .roundCount := by decide
theorem test_reserved_code_faults :
    fault? (step { State.reset with seq := 0xC#4 }) = some .reservedSeq := by decide
theorem test_reserved_stage_stops_kchk :
    fault? (step (at' .kchk (refJob 0) 3 0 0)) = some .reservedStage := by decide
theorem test_reserved_stage_is_never_final :
    fault? (readDigest (at' .done (refJob 0) 3 0 0)) = some .reservedStage := by decide
theorem test_submit_while_busy :
    refusal? (submit (refJob 0) (at' .out (refJob 0) 2 0 0)) = some .submitWhileBusy := by decide
theorem test_submit_of_no_descriptor :
    refusal? (submit ⟨1, [], 0, []⟩ State.reset) = some .notADescriptor := by decide
theorem test_read_digest_in_err :
    refusal? (readDigest (at' .err (refJob 0) 0 0 0)) = some .digestNotReady := by decide
theorem test_read_status_err :
    next? (readStatus (at' .err (refJob 0) 0 0 0)) = some (3#2, 1#1) := by decide

/-! ## Witnesses: for each obligation with hypotheses, concrete inputs that meet them, at the edges of its clauses -/

theorem witness_OperationCodesDecodeAsMapped : 0xC#4 ≤ 0xC#4 ∧ 0xC#4 ≤ 0xF#4 := by decide
theorem witness_DecodeInvertsEncode : decode 0x0#4 = .ok .idle ∧ decode 0xB#4 = .ok .err :=
  ⟨rfl, rfl⟩
theorem witness_StepRunsTheOperationInSeq :
    decode (at' .init (refJob 8) 0 0 0).seq = .ok .init ∧ Instr.wf .init := ⟨rfl, trivial⟩
theorem witness_ReservedSeqCodeFaults :
    0xC#4 ≤ { State.reset with seq := 0xC#4 }.seq ∧ 0xC#4 ≤ { State.reset with seq := 0xF#4 }.seq := by
  decide
theorem witness_PlacedOperationIsRunNext : 4 ≤ 4 ∧ 4 ≤ 8 := by decide
theorem witness_KchkChecksTheKeyLength :
    (at' .kchk (refJob 0) 0 0 0).job = some (refJob 0) ∧ (at' .kchk (refJob 0) 0 0 0).stg ≠ 3#2 ∧
      (refJob 0).keyLen = 16 ∧
      (JobDescriptor.ofBytes (ramp 15) []).keyLen ≠ 16 ∧
      (JobDescriptor.ofBytes (ramp 17) []).keyLen ≠ 16 := by decide
theorem witness_InitLoadsTheAccumulator :
    (at' .init (refJob 7) 0 0 0).job = some (refJob 7) ∧ (refJob 7).wf ∧ (refJob 7).keyLen = 16 ∧
      (at' .init (refJob 7) 0 0 0).stg ≠ 3#2 ∧ ¬ 8 ≤ (refJob 7).dataLen ∧ (refJob 8).wf ∧ 8 ≤ (refJob 8).dataLen := by decide
theorem witness_LdblkLoadsTheNextBlock :
    let s := at' .ldblk (refJob 16) 0 0 8
    s.job = some (refJob 16) ∧ (refJob 16).wf ∧ s.stg ≠ 3#2 ∧ s.off + 8 ≤ (refJob 16).dataLen := by
  decide
theorem witness_PackBuildsTheTailWord :
    let s := at' .pack (refJob 15) 0 0 8
    let s' := at' .pack (refJob 16) 0 0 16
    (s.job = some (refJob 15) ∧ (refJob 15).wf ∧ s.stg ≠ 3#2 ∧ s.off ≤ (refJob 15).dataLen ∧
      (refJob 15).dataLen - s.off ≤ 7) ∧
    (s'.job = some (refJob 16) ∧ (refJob 16).wf ∧ s'.stg ≠ 3#2 ∧ s'.off ≤ (refJob 16).dataLen ∧
      (refJob 16).dataLen - s'.off ≤ 7) := by decide
theorem witness_XinXorsIntoV3AndArmsTwoRounds :
    (at' .xin (refJob 8) 0 0 8).stg = 0#2 ∧ (at' .xin (refJob 8) 1 0 8).stg = 1#2 := by decide
theorem witness_RndRunsOneRound :
    let s := at' .rnd (refJob 8) 0 2 8
    let s' := at' .rnd (refJob 8) 1 1 8
    let s'' := at' .rnd (refJob 8) 2 4 8
    ((s.stg = 0#2 ∨ s.stg = 1#2) ∧ (s.rc = 1#3 ∨ s.rc = 2#3)) ∧
    ((s'.stg = 0#2 ∨ s'.stg = 1#2) ∧ (s'.rc = 1#3 ∨ s'.rc = 2#3)) ∧
    (s''.stg = 2#2 ∧ (s''.rc = 1#3 ∨ s''.rc = 2#3 ∨ s''.rc = 3#3 ∨ s''.rc = 4#3)) := by decide
theorem witness_XoutXorsIntoV0AndChoosesTheSuccessor :
    let s := at' .xout (refJob 16) 0 0 8
    let s' := at' .xout (refJob 15) 0 0 8
    let s'' := at' .xout (refJob 15) 1 0 15
    (s.rc = 0#3 ∧ s.stg = 0#2 ∧ s.job = some (refJob 16) ∧ s.off + 8 ≤ (refJob 16).dataLen) ∧
    (s'.rc = 0#3 ∧ s'.stg = 0#2 ∧ s'.job = some (refJob 15) ∧ ¬ s'.off + 8 ≤ (refJob 15).dataLen) ∧
    (s''.rc = 0#3 ∧ s''.stg = 1#2) ∧
    (at' .xout (refJob 15) 2 0 15).rc = 0#3 ∧ (at' .xout (refJob 15) 2 0 15).stg ≠ 0#2 ∧
      (at' .xout (refJob 15) 2 0 15).stg ≠ 1#2 := by decide
theorem witness_FxorXorsIntoV2AndArmsFourRounds : (at' .fxor (refJob 0) 1 0 0).stg ≠ 3#2 := by decide
theorem witness_OutFoldsTheDigest : (at' .out (refJob 0) 2 0 0).stg ≠ 3#2 := by decide
theorem witness_KeyWordsTakeKeyBytesLittleEndian :
    (at' .init (refJob 0) 0 0 0).job = some (refJob 0) ∧ (refJob 0).wf ∧ 0 < 8 ∧ 7 < 8 ∧
      ∃ t, exec .init (at' .init (refJob 0) 0 0 0) = .next t :=
  ⟨rfl, by decide, by decide, by decide, _, rfl⟩
theorem witness_BlockWordTakesMessageBytesLittleEndian :
    (at' .ldblk (refJob 16) 0 0 8).job = some (refJob 16) ∧ (refJob 16).wf ∧ 7 < 8 ∧
      ∃ t, exec .ldblk (at' .ldblk (refJob 16) 0 0 8) = .next t :=
  ⟨rfl, by decide, by decide, _, rfl⟩
theorem witness_TailWordHoldsTailBytesAndLength :
    (at' .pack (refJob 9) 0 0 8).job = some (refJob 9) ∧ (refJob 9).wf ∧
      (at' .pack (refJob 9) 0 0 8).off = 8 * ((refJob 9).dataLen / 8) ∧
      0 < (refJob 9).dataLen % 8 ∧ (refJob 9).dataLen % 8 ≤ 1 ∧ 1 < 7 ∧
      ∃ t, exec .pack (at' .pack (refJob 9) 0 0 8) = .next t :=
  ⟨rfl, by decide, by decide, by decide, by decide, by decide, _, rfl⟩
theorem witness_RotationMovesEveryBitCircularly :
    (0 < 1 ∧ 1 < 64 ∧ 63 < 64) ∧ (0 < 63 ∧ 63 < 64 ∧ 0 < 64) := by decide
theorem witness_InitNeverProducesTheZeroFixedPoint :
    ∃ t, exec .init (at' .init (refJob 0) 0 0 0) = .next t := ⟨_, rfl⟩

/-- Every operation completes from the state it is placed in after reset (for the frame and the write-nothing
statements, and for the successor table). -/
theorem witness_OperationsWriteOnlyTheirRegisters (i : Instr) :
    completes i (State.reset.withFetchWord 4 (encode i).toNat) = true := by cases i <;> decide
theorem witness_EngineWritesNoMemory :
    ∃ t, step (at' .init (refJob 8) 0 0 0) = .next t := ⟨_, rfl⟩

/-- A job that differs from `refJob 9` in its last byte, which the first `LDBLK` does not read. -/
def otherTail : JobDescriptor := .ofBytes refKey (ramp 8 ++ [0xff])

theorem witness_OperationsReadOnlyTheirBytes :
    let s := at' .ldblk (refJob 9) 0 0 0
    s.job = some (refJob 9) ∧ (refJob 9).wf ∧ otherTail.wf ∧ otherTail ≠ refJob 9 ∧
      otherTail.keyLen = (refJob 9).keyLen ∧ otherTail.dataLen = (refJob 9).dataLen ∧
      (∀ p ∈ byteReads .ldblk s,
        readByte p.1 p.2 { s with job := some otherTail } = readByte p.1 p.2 s) ∧
      completes .ldblk s = true := by decide
theorem witness_UnreachableCombinationsFault :
    (at' .rnd (refJob 8) 0 0 8).rc = 0#3 ∧ (at' .rnd (refJob 8) 3 1 8).stg = 3#2 ∧
      (at' .xout (refJob 8) 2 0 8).stg = 2#2 ∧
      (at' .ldblk (refJob 8) 0 0 1).off + 8 > (refJob 8).dataLen ∧
      (refJob 8).dataLen - (at' .pack (refJob 8) 0 0 0).off > 7 ∧
      (at' .pack (refJob 8) 0 0 9).off > (refJob 8).dataLen ∧
      (JobDescriptor.ofBytes (ramp 15) []).keyLen ≠ 16 := by decide
theorem witness_QuiescentCodesChangeNothing :
    State.reset.stg ≠ 3#2 ∧ (at' .done (refJob 0) 2 0 0).stg ≠ 3#2 := by decide
theorem witness_ReservedStageFaults :
    (let s := at' .idle (refJob 8) 3 0 0; s.stg = 3#2 ∧ s.seq ≤ 0xB#4) ∧
    (let s := at' .err (refJob 8) 3 0 8; s.stg = 3#2 ∧ s.seq ≤ 0xB#4) := by decide
theorem witness_OperationsFaultWhereNotEnabled :
    (let s := at' .rnd (refJob 8) 0 3 8; s.stg = 0#2 ∧ 2#3 < s.rc) ∧
    (let s := at' .rnd (refJob 8) 2 5 8; s.stg = 2#2 ∧ 4#3 < s.rc) ∧
    (at' .xin (refJob 8) 2 0 8).stg = 2#2 ∧
    (let s := at' .xout (refJob 8) 1 1 8; s.stg = 1#2 ∧ s.rc ≠ 0#3) ∧
    (let s := State.reset; s.job = none ∧ s.stg ≠ 3#2 ∧ s.stg = 0#2 ∧ s.rc = 0#3) := by decide
theorem witness_SuccessorTable :
    completes .kchk (at' .kchk (refJob 0) 0 0 0) = true ∧
    completes .xout (at' .xout (refJob 8) 0 0 8) = true ∧
    completes .rnd (at' .rnd (refJob 8) 2 1 8) = true ∧
    (next? (act (.host (.submit (refJob 0))) State.reset)).isSome ∧
    (next? (act (.host .readStatus) State.reset)).isSome ∧
    (next? (act (.host .reset) (at' .rnd (refJob 8) 2 1 8))).isSome := by decide
theorem witness_OnlyKchkRaisesInvalidKeyLength :
    let s := at' .kchk (.ofBytes (ramp 15) []) 0 0 0
    s.seq ≠ 0xB#4 ∧ completes .kchk s = true ∧ (at' .init (refJob 0) 0 0 0).seq ≠ 0xB#4 ∧
      completes .init (at' .init (refJob 0) 0 0 0) = true := by decide
theorem witness_QuiescentEngineWaitsForTheHost :
    quiescent State.reset = true ∧ State.reset.stg ≠ 3#2 ∧ quiescent (at' .done (refJob 0) 2 0 0) = true ∧
      quiescent (at' .err (refJob 0) 0 0 0) = true := by decide
theorem witness_SubmitCapturesTheJob :
    State.reset.seq = 0x0#4 ∧ (at' .done (refJob 0) 2 0 0).seq = 0xA#4 ∧
      (at' .err (refJob 0) 0 0 0).seq = 0xB#4 ∧ State.reset.stg ≠ 3#2 ∧
      (at' .done (refJob 0) 2 0 0).stg ≠ 3#2 ∧ (at' .err (refJob 0) 0 0 0).stg ≠ 3#2 ∧ (refJob 9).wf := by decide
theorem witness_SubmitIsRefusedWhileBusy :
    (let s := at' .kchk (refJob 0) 0 0 0; 0x1#4 ≤ s.seq ∧ s.seq ≤ 0x9#4 ∧ s.stg ≠ 3#2) ∧
    (let s := at' .out (refJob 0) 2 0 0; 0x1#4 ≤ s.seq ∧ s.seq ≤ 0x9#4 ∧ s.stg ≠ 3#2) := by decide
theorem witness_ReadStatusDecodesSeq :
    (∀ i, (at' i (refJob 0) 2 0 0).stg ≠ 3#2) ∧ State.reset.seq = 0x0#4 ∧ 0x1#4 ≤ (at' .kchk (refJob 0) 0 0 0).seq ∧
      (at' .out (refJob 0) 2 0 0).seq ≤ 0x9#4 ∧ (at' .done (refJob 0) 2 0 0).seq = 0xA#4 ∧
      (at' .err (refJob 0) 0 0 0).seq = 0xB#4 ∧ (at' .err (refJob 0) 0 0 0).seq ≤ 0xB#4 := by
  refine ⟨fun _ => by simp [at'], ?_⟩; decide
theorem witness_ReadDigestOnlyWhenDone :
    (let s := at' .done (refJob 0) 2 0 0; s.stg ≠ 3#2 ∧ s.seq = 0xA#4) ∧
      (let s := at' .out (refJob 0) 2 0 0; s.stg ≠ 3#2 ∧ s.seq ≤ 0xB#4 ∧ s.seq ≠ 0xA#4) ∧
      (let s := at' .err (refJob 0) 0 0 0; s.stg ≠ 3#2 ∧ s.seq ≤ 0xB#4 ∧ s.seq ≠ 0xA#4) := by decide
theorem witness_StatusSignalsAreExclusive :
    State.reset.seq ≤ 0xB#4 ∧ (at' .err (refJob 0) 0 0 0).seq ≤ 0xB#4 := by decide
theorem witness_CapturedJobIsImmutableWhileBusy :
    let s := at' .init (refJob 8) 0 0 0
    busy s = true ∧ Move.engine ≠ .host .reset ∧ (next? (act .engine s)).isSome ∧
      (next? (act (.host .readStatus) s)).isSome := by decide

theorem witness_EngineStepKeepsTheControlInvariant :
    ControlInv (at' .ldblk (refJob 8) 0 0 0) ∧ completes .ldblk (at' .ldblk (refJob 8) 0 0 0) = true :=
  ⟨controlInv_of_at (i := .ldblk) rfl rfl (by decide) ⟨rfl, rfl, rfl, by decide⟩, by decide⟩

/-- The whole invariant at a busy state: after `INIT` of a nine-byte job (program P2's row 2 with nine bytes). -/
theorem witness_EveryMoveKeepsTheWholeInvariant :
    Machine.Inv (with' (at' .ldblk (refJob 9) 0 0 0) refAcc 0) ∧
      (next? (act .engine (with' (at' .ldblk (refJob 9) 0 0 0) refAcc 0))).isSome := by
  refine ⟨⟨controlInv_of_at (i := .ldblk) rfl rfl (by decide) ⟨rfl, rfl, rfl, by decide⟩, ?_⟩, by decide⟩
  intro j hj
  obtain rfl : refJob 9 = j := Option.some.inj hj
  refine ⟨fun _ => by decide, ?_, ?_, ?_, ?_, ?_, ?_, ?_⟩ <;>
    simp [State.atOp, with', at']

theorem witness_NoFaultUnderTheControlInvariant :
    ControlInv (at' .kchk (refJob 0) 0 0 0) ∧ ControlInv (at' .rnd (refJob 8) 2 4 8) :=
  ⟨controlInv_of_at (i := .kchk) rfl rfl (by decide) (by simp [controlFact, at']),
    controlInv_of_at (i := .rnd) rfl rfl (by decide)
      ⟨rfl, by decide, by decide, Or.inr ⟨Or.inr rfl, rfl⟩⟩⟩

/-- The shortest run from reset that ends in DONE: program P1 (95 section 5), SUBMIT and thirteen engine moves. -/
theorem witness_ReachableDigestIsSum64 :
    (next? (runMoves (.host (.submit (refJob 0)) :: List.replicate 13 .engine) State.reset)).map
      (fun t => (t.seq, t.digest)) = some (0xA#4, 0x726fdb47dd0e0e31) := by decide
theorem witness_OffsetNeverWraps :
    (ControlInv (at' .ldblk (refJob 15) 0 0 0) ∧ (refJob 15).dataLen < 2 ^ 4) ∧
      (ControlInv (at' .out (refJob 15) 2 0 15) ∧ 0x3#4 ≤ (at' .out (refJob 15) 2 0 15).seq ∧
        (at' .out (refJob 15) 2 0 15).seq ≤ 0x9#4) :=
  ⟨⟨controlInv_of_at (i := .ldblk) rfl rfl (by decide) ⟨rfl, rfl, rfl, by decide⟩, by decide⟩,
    controlInv_of_at (i := .out) rfl rfl (by decide) ⟨rfl, rfl, rfl, rfl⟩, by decide, by decide⟩
theorem witness_CompressBracketComputesCompress :
    (let s := at' .xin (refJob 8) 0 0 8; s.seq = 0x5#4 ∧ s.stg = 0#2 ∧ s.job.isSome = true) ∧
    (let s := at' .xin (refJob 8) 1 0 8; s.seq = 0x5#4 ∧ s.stg = 1#2) := by decide
theorem witness_FinalizeBracketComputesFinalize :
    (at' .fxor (refJob 8) 1 0 8).seq = 0x8#4 ∧ (at' .fxor (refJob 8) 1 0 8).stg ≠ 3#2 := by decide
theorem witness_EngineComputesSum64 :
    quiescent State.reset = true ∧ State.reset.stg ≠ 3#2 ∧ (refJob 15).wf ∧ (refJob 15).keyLen = 16 := by decide
theorem witness_InvalidKeyLengthEndsInErr :
    let j := JobDescriptor.ofBytes (ramp 15) (ramp 8)
    quiescent State.reset = true ∧ State.reset.stg ≠ 3#2 ∧ j.wf ∧ j.keyLen ≠ 16 := by decide
theorem witness_JobOutcomeIsIndependentOfThePast :
    (next? (submit (refJob 8) State.reset)).isSome ∧
      (next? (submit (refJob 8) (with' (at' .err (refJob 8) 2 3 5) refAcc 7))).isSome ∧
      (next? (runEngine 1 (at' .kchk (refJob 8) 0 0 0))).isSome := by decide
theorem witness_JobTraceIsTheSum64Expansion :
    (at' .kchk (refJob 9) 2 7 0).seq = 0x1#4 ∧ (at' .kchk (refJob 9) 2 7 0).stg ≠ 3#2 ∧
      (at' .kchk (refJob 9) 2 7 0).job = some (refJob 9) ∧ (refJob 9).wf := by decide
theorem witness_EveryInputByteIsReadOnceInOrder :
    (at' .kchk (refJob 9) 0 0 0).seq = 0x1#4 ∧ (at' .kchk (refJob 9) 0 0 0).stg ≠ 3#2 ∧
      (at' .kchk (refJob 9) 0 0 0).job = some (refJob 9) ∧ (refJob 9).wf ∧ (refJob 9).keyLen = 16 := by decide
theorem witness_JobOperationCounts : (refJob 9).keyLen = 16 ∧ (JobDescriptor.ofBytes [] []).keyLen ≠ 16 := by
  decide

theorem witness_HostSeesOnlyStatusCauseAndDigest :
    let s := at' .kchk (refJob 9) 0 0 0
    let s' := with' (at' .out (refJob 0) 2 0 0) refAcc 7
    s.seq ≤ 0xB#4 ∧ s'.seq ≤ 0xB#4 ∧ s.stg ≠ 3#2 ∧ s'.stg ≠ 3#2 ∧ status s' = status s ∧
      (s.seq = 0xA#4 → s'.digest = s.digest) := by
  decide
theorem witness_JobEndsOnceTheEngineHasMovedEnough :
    let moves := .host .readStatus :: List.replicate 13 Move.engine
    let j := JobDescriptor.ofBytes (ramp 15) (ramp 7)
    (next? (submit (refJob 7) State.reset)).isSome ∧ (refJob 7).keyLen = 16 ∧
      (next? (submit j State.reset)).isSome ∧ j.keyLen ≠ 16 ∧
      13 + 5 * (j.dataLen / 8) ≤ moves.count .engine ∧
      (∀ mv ∈ moves, mv = .engine ∨ mv = .host .readStatus) ∧
      13 + 5 * ((refJob 7).dataLen / 8) ≤ moves.count .engine := by decide

end Sys2Proof.Tests
end

section
/-! The statement about the scope file (00_scope.md). -/

namespace Sys2Proof

/-- Settles O8: the configuration record is defined with the four numbers of 00_scope.md R8. -/
theorem initialisationConstantsAreThoseOfTheScope :
    Obligations.InitialisationConstantsAreThoseOfTheScope := by
  unfold Obligations.InitialisationConstantsAreThoseOfTheScope Config.initConstants
  rfl

end Sys2Proof
end

section
/-! The statements about the state (10_state.md): the status signals and the offset. -/

namespace Sys2Proof.Machine

variable {s : State}

theorem busy_iff : busy s = true ↔ 0x1#4 ≤ s.seq ∧ s.seq ≤ 0x9#4 := by simp [busy]

theorem doneFlag_iff : doneFlag s = true ↔ s.seq = 0xA#4 := by simp [doneFlag]

theorem errFlag_iff : errFlag s = true ↔ s.seq = 0xB#4 := by simp [errFlag]

theorem idleFlag_iff : idleFlag s = true ↔ s.seq = 0x0#4 := by simp [idleFlag]

/-- The digest port answers in DONE only (40_job_control.md R103). -/
theorem done_of_readDigest_next {d : Word} (h : readDigest s = .next d) : s.seq = 0xA#4 := by
  obtain ⟨-, -, hd⟩ := whenNamed_next.1 h
  split at hd
  · next hdone => exact doneFlag_iff.1 hdone
  · simp at hd

/-- In every stage the live offset stays within the message: in BLOCK as a block boundary, in TAIL and FINAL as its end
(46_sequencer.md R196 items 3 to 6). -/
theorem ControlInv.off_le {j : JobDescriptor} (h : ControlInv s) (hj : s.job = some j)
    (h3 : 0x3#4 ≤ s.seq) (h9 : s.seq ≤ 0x9#4) : s.off ≤ j.dataLen := by
  rcases stage_cases _ h.stageNamed with hb | hstg
  · exact (h.blockOffset j hj h3 h9 hb).2
  · have codes : ∀ c : OpCode, 0x3#4 ≤ c → c = 0x3#4 ∨ c = 0x4#4 ∨ 0x5#4 ≤ c := by decide
    rcases codes _ h3 with hl | hp | h5
    · have := (h.loadInRange j hj hl).2
      omega
    · have := (h.packAtHead j hj hp).2.1
      omega
    · exact (h.consumed j hj h5 h9 hstg).le

end Sys2Proof.Machine

namespace Sys2Proof

open Machine

/-- Settles O39: `seq` is IDLE after reset, so every signal is that of IDLE and the digest port, which answers in DONE only,
answers nothing. -/
theorem resetStateIsIdle : Obligations.ResetStateIsIdle := by
  refine ⟨rfl, rfl, rfl, rfl, fun d h => ?_, fun hs => ?_, rfl, rfl, rfl⟩
  · exact absurd (done_of_readDigest_next h) (by decide)
  · exact whenNamed_named rfl hs

/-- Settles O40: each signal decodes `seq`, and over the twelve named codes one of the four holds. -/
theorem statusSignalsAreExclusive : Obligations.StatusSignalsAreExclusive := by
  refine fun s => ⟨busy_iff, doneFlag_iff, errFlag_iff, idleFlag_iff, ?_⟩
  simp only [busy, doneFlag, errFlag, idleFlag]
  generalize s.seq = c
  revert c
  decide

/-- Settles O48: `off` is at most `data_len`, so it fits every width `data_len` fits. -/
theorem offsetNeverWraps : Obligations.OffsetNeverWraps := by
  intro s j lenw h hj h3 h9 hlen
  have hoff := h.off_le hj h3 h9
  exact ⟨hoff, hoff.trans_lt hlen⟩

end Sys2Proof
end

section
/-! The statements about what a move leaves unchanged (10_state.md R24, R30). -/

namespace Sys2Proof

open Machine

/-- Settles O25: an operation's next state, by its inversion lemma, is an update of the registers it writes. -/
theorem operationsWriteOnlyTheirRegisters : Obligations.OperationsWriteOnlyTheirRegisters := by
  intro i s t h
  have hjob := exec_job h
  simp only [hjob, readByte_congr hjob, implies_true, and_true]
  cases i <;> simp only [exec] at h
  case idle => simp [(execIdle_next.1 h).2]
  case kchk => obtain ⟨_, _, _, rfl⟩ := execKchk_next.1 h; simp
  case init => obtain ⟨_, _, _, _, _, _, _, _, rfl⟩ := execInit_next.1 h; simp
  case ldblk => obtain ⟨_, _, _, _, _, _, rfl⟩ := execLdblk_next.1 h; simp
  case pack => obtain ⟨_, _, _, _, _, _, _, rfl⟩ := execPack_next.1 h; simp
  case xin => obtain ⟨_, _, rfl⟩ := execXin_next.1 h; simp
  case rnd => obtain ⟨_, _, rfl⟩ := execRnd_next.1 h; simp
  case xout => obtain ⟨_, _, _, ⟨_, _, _, rfl⟩ | ⟨_, rfl⟩⟩ := execXout_next.1 h <;> simp
  case fxor => obtain ⟨_, rfl⟩ := execFxor_next.1 h; simp
  case out => obtain ⟨_, rfl⟩ := execOut_next.1 h; simp
  case done => simp [(execDone_next.1 h).2]
  case err => simp [(execErr_next.1 h).2]

/-- Settles O41: no operation writes the job, and of the host's transactions only RESET and a SUBMIT do, which is refused
while BUSY. -/
theorem capturedJobIsImmutableWhileBusy : Obligations.CapturedJobIsImmutableWhileBusy := by
  intro mv s t hbusy hreset h
  cases mv with
  | engine => exact step_job h
  | host r =>
    rcases act_host_next h with ⟨j, -, hs⟩ | ⟨rfl, -⟩ | ⟨-, rfl⟩
    · exact absurd hbusy (quiescent_iff_not.1 (submit_next.1 hs).1).2
    · exact absurd rfl hreset
    · rfl

end Sys2Proof
end

section
/-! Placing an operation as the next one to run (log 16). -/

namespace Sys2Proof.Machine

theorem completes_iff {i : Instr} {s : State} : completes i s = true ↔ ∃ t, exec i s = .next t := by
  cases h : exec i s <;> simp [completes, h]

@[simp] theorem placedJob_dataLen : placedJob.dataLen = 8 := rfl

theorem placedJob_wf : placedJob.wf := JobDescriptor.ofBytes_wf _ _

/-- The control tuple and the job that `placeFor` falls back on enable the operation. -/
theorem exec_placeFor (i : Instr) (s : State) : ∃ t, exec i (placeFor i s) = .next t := by
  unfold placeFor
  by_cases h : completes i s = true
  · rw [if_pos h]
    exact completes_iff.1 h
  · rw [if_neg h]
    cases i
    case idle => exact ⟨_, execIdle_next.2 ⟨by simp, rfl⟩⟩
    case kchk => exact ⟨_, execKchk_next.2 ⟨by simp, _, rfl, rfl⟩⟩
    case init =>
      exact ⟨_, execInit_next.2 ⟨_, _, _, by simp, rfl, rfl, memRead_wf placedJob_wf (by decide),
        memRead_wf placedJob_wf (by decide), rfl⟩⟩
    case ldblk =>
      exact ⟨_, execLdblk_next.2 ⟨_, _, by simp, rfl, by simp,
        memRead_wf placedJob_wf (by simp [spaceLen]), rfl⟩⟩
    case pack =>
      exact ⟨_, execPack_next.2 ⟨_, _, by simp, rfl, by simp, by simp,
        memRead_wf placedJob_wf (by simp [spaceLen]), rfl⟩⟩
    case xin => exact ⟨_, execXin_next.2 ⟨by simp, by simp, rfl⟩⟩
    case rnd => exact ⟨_, execRnd_next.2 ⟨by simp, ⟨by simp, by simp [burstLength]⟩, rfl⟩⟩
    case xout =>
      exact ⟨_, execXout_next.2 ⟨by simp, by simp, rfl, Or.inl ⟨_, rfl, rfl, rfl⟩⟩⟩
    case fxor => exact ⟨_, execFxor_next.2 ⟨by simp, rfl⟩⟩
    case out => exact ⟨_, execOut_next.2 ⟨by simp, rfl⟩⟩
    case done => exact ⟨_, execDone_next.2 ⟨by simp, rfl⟩⟩
    case err => exact ⟨_, execErr_next.2 ⟨by simp, rfl⟩⟩

/-- The placing never writes `seq`. -/
@[simp] theorem placeFor_seq (i : Instr) (s : State) : (placeFor i s).seq = s.seq := by
  unfold placeFor
  split
  · rfl
  · cases i <;> rfl

@[simp] theorem tableCode_encode (i : Instr) : tableCode (encode i).toNat = encode i := by
  simp [tableCode]

theorem decodeTableWord_encode (i : Instr) {nbits : Nat} (h : 4 ≤ nbits) :
    decodeTableWord nbits (encode i).toNat = some i := by
  simp [decodeTableWord, Nat.not_lt.2 h]

/-- An operation's own table word selects it and places what it needs. -/
theorem withFetchWord_encode (i : Instr) (s : State) {nbits : Nat} (h : 4 ≤ nbits) :
    s.withFetchWord nbits (encode i).toNat = placeFor i { s with seq := encode i } := by
  simp [State.withFetchWord, decodeTableWord_encode i h]

end Sys2Proof.Machine

namespace Sys2Proof

open Machine

/-- Settles O6: the placed state holds the operation's code and enables it. -/
theorem placedOperationIsRunNext : Obligations.PlacedOperationIsRunNext := by
  intro s i nbits hn
  rw [withFetchWord_encode i s hn]
  obtain ⟨t, ht⟩ := exec_placeFor i { s with seq := encode i }
  exact ⟨t, ht, (step_atOp (placeFor_seq i _)).trans ht⟩

end Sys2Proof
end

section
/-! Two runs of one job: the registers a job reads are those it has written itself (10_state.md R36). -/

namespace Sys2Proof.Machine

/-- The registers that the job has written and still reads agree, at an operation: none up to INIT; then the accumulator,
`off` and `stg`; with `m` from the block or tail word on, with `rc` within a bracket; in DONE the digest. -/
def LiveAgree (i : Instr) (s s' : State) : Prop :=
  match i with
  | .idle | .kchk | .init | .err => True
  | .ldblk | .pack => s'.v = s.v ∧ s'.off = s.off ∧ s'.stg = s.stg
  | .xin | .fxor => s'.v = s.v ∧ s'.off = s.off ∧ s'.stg = s.stg ∧ s'.m = s.m
  | .rnd | .xout => s'.v = s.v ∧ s'.off = s.off ∧ s'.stg = s.stg ∧ s'.m = s.m ∧ s'.rc = s.rc
  | .out => s'.v = s.v
  | .done => s'.digest = s.digest

/-- `s'` is at the same place of the same job as `s`, whatever the registers that are not live hold. -/
structure Tracks (s s' : State) : Prop where
  seq : s'.seq = s.seq
  job : s'.job = s.job
  stageNamed : s'.stg ≠ Stage.reserved
  live : ∀ i, s.seq = encode i → LiveAgree i s s'

variable {s s' t u u' : State}

/-- The transfer of control to an operation at which the live registers agree. -/
theorem Tracks.goto {i : Instr} (hj : u'.job = u.job) (hs : u'.stg ≠ Stage.reserved)
    (h : LiveAgree i u u') : Tracks (goto i u) (goto i u') where
  seq := rfl
  job := hj
  stageNamed := hs
  live k hk := by
    obtain rfl : i = k := encode_injective hk
    cases i <;> exact h

theorem liveAgree_blockSuccessor {off len : Nat} (h : LiveAgree .ldblk u u') :
    LiveAgree (blockSuccessor off len) u u' := by
  unfold blockSuccessor
  split <;> exact h

theorem liveAgree_roundSuccessor {rc : BitVec 3} {stg : BitVec 2} (h : LiveAgree .rnd u u') :
    LiveAgree (roundSuccessor rc stg) u u' := by
  unfold roundSuccessor
  split
  · exact h
  · split
    · exact h.1
    · exact h

/-- One operation: where it goes on from `s`, it goes on from every state at the same place of the same job, to the same
place again. -/
theorem Tracks.exec {i : Instr} (h : Tracks s s') (hi : s.seq = encode i)
    (he : exec i s = .next t) : ∃ t', exec i s' = .next t' ∧ Tracks t t' := by
  have hj := h.job
  have hs := h.stageNamed
  have hl := h.live i hi
  cases i <;> simp only [LiveAgree] at hl <;> simp only [Machine.exec] at he
  case idle =>
    obtain ⟨-, rfl⟩ := execIdle_next.1 he
    exact ⟨s', execIdle_next.2 ⟨hs, rfl⟩, h⟩
  case kchk =>
    obtain ⟨-, j, hjob, rfl⟩ := execKchk_next.1 he
    refine ⟨_, execKchk_next.2 ⟨hs, j, hj.trans hjob, rfl⟩, Tracks.goto hj hs ?_⟩
    split <;> trivial
  case init =>
    obtain ⟨j, b0, b1, -, hjob, hk, h0, h1, rfl⟩ := execInit_next.1 he
    exact ⟨_, execInit_next.2 ⟨j, b0, b1, hs, hj.trans hjob, hk, h0, h1, rfl⟩,
      Tracks.goto hj (by simp) (liveAgree_blockSuccessor ⟨rfl, rfl, rfl⟩)⟩
  case ldblk =>
    obtain ⟨hv, ho, hg⟩ := hl
    obtain ⟨j, bs, -, hjob, hlen, hb, rfl⟩ := execLdblk_next.1 he
    rw [← ho] at hlen hb
    exact ⟨_, execLdblk_next.2 ⟨j, bs, hs, hj.trans hjob, hlen, hb, rfl⟩,
      Tracks.goto hj hs ⟨hv, congrArg (· + 8) ho, hg, rfl⟩⟩
  case pack =>
    obtain ⟨hv, ho, -⟩ := hl
    obtain ⟨j, bs, -, hjob, hlen, h7, hb, rfl⟩ := execPack_next.1 he
    rw [← ho] at hlen h7 hb
    exact ⟨_, execPack_next.2 ⟨j, bs, hs, hj.trans hjob, hlen, h7, hb, rfl⟩,
      Tracks.goto hj (by simp) ⟨hv, rfl, rfl, rfl⟩⟩
  case xin =>
    obtain ⟨hv, ho, hg, hm⟩ := hl
    obtain ⟨-, h2, rfl⟩ := execXin_next.1 he
    exact ⟨_, execXin_next.2 ⟨hs, hg ▸ h2, rfl⟩,
      Tracks.goto hj hs ⟨congrArg₂ Acc.xorV3 hv hm, ho, hg, hm, rfl⟩⟩
  case rnd =>
    obtain ⟨hv, ho, hg, hm, hr⟩ := hl
    obtain ⟨-, hcount, rfl⟩ := execRnd_next.1 he
    rw [← hr, ← hg] at hcount ⊢
    exact ⟨_, execRnd_next.2 ⟨hs, hcount, rfl⟩,
      Tracks.goto hj hs (liveAgree_roundSuccessor ⟨congrArg sipRound hv, ho, rfl, hm, rfl⟩)⟩
  case xout =>
    obtain ⟨hv, ho, hg, hm, hr⟩ := hl
    have hv' := congrArg₂ Acc.xorV0 hv hm
    obtain ⟨-, h2, h0, ⟨j, hb, hjob, rfl⟩ | ⟨hb, rfl⟩⟩ := execXout_next.1 he
    · rw [← ho]
      exact ⟨_, execXout_next.2 ⟨hs, hg ▸ h2, hr.trans h0,
          Or.inl ⟨j, hg.trans hb, hj.trans hjob, rfl⟩⟩,
        Tracks.goto hj hs (liveAgree_blockSuccessor ⟨hv', rfl, hg⟩)⟩
    · exact ⟨_, execXout_next.2 ⟨hs, hg ▸ h2, hr.trans h0, Or.inr ⟨hg ▸ hb, rfl⟩⟩,
        Tracks.goto hj hs ⟨hv', ho, hg, hm⟩⟩
  case fxor =>
    obtain ⟨hv, ho, -, hm⟩ := hl
    obtain ⟨-, rfl⟩ := execFxor_next.1 he
    exact ⟨_, execFxor_next.2 ⟨hs, rfl⟩,
      Tracks.goto hj (by simp) ⟨congrArg (Acc.xorV2 · _) hv, ho, rfl, hm, rfl⟩⟩
  case out =>
    obtain ⟨-, rfl⟩ := execOut_next.1 he
    exact ⟨_, execOut_next.2 ⟨hs, rfl⟩, Tracks.goto hj hs (congrArg Acc.fold hl)⟩
  case done =>
    obtain ⟨-, rfl⟩ := execDone_next.1 he
    exact ⟨s', execDone_next.2 ⟨hs, rfl⟩, h⟩
  case err =>
    obtain ⟨-, rfl⟩ := execErr_next.1 he
    exact ⟨s', execErr_next.2 ⟨hs, rfl⟩, h⟩

theorem Tracks.step (h : Tracks s s') (he : step s = .next t) :
    ∃ t', step s' = .next t' ∧ Tracks t t' := by
  obtain ⟨i, hi, hx⟩ := step_next he
  rw [step_atOp (h.seq.trans hi)]
  exact h.exec hi hx

theorem runEngine_succ_next {n : Nat} :
    runEngine (n + 1) s = .next t ↔ ∃ u, Machine.step s = .next u ∧ runEngine n u = .next t := by
  rw [runEngine]
  split <;> simp [*]

theorem Tracks.runEngine (h : Tracks s s') {n : Nat} (hr : runEngine n s = .next t) :
    ∃ t', runEngine n s' = .next t' ∧ Tracks t t' := by
  induction n generalizing s s' with
  | zero =>
    obtain rfl := next_eq_iff.1 hr
    exact ⟨s', rfl, h⟩
  | succ n ih =>
    obtain ⟨u, hu, hr⟩ := runEngine_succ_next.1 hr
    obtain ⟨u', hu', h'⟩ := h.step hu
    obtain ⟨t', ht', htt'⟩ := ih h' hr
    exact ⟨t', runEngine_succ_next.2 ⟨u', hu', ht'⟩, htt'⟩

/-- SUBMIT of one job brings any two states that accept it to the same place: at KCHK no register is live. -/
theorem tracks_of_submit {j : JobDescriptor} (h : submit j s = .next t) (h' : submit j s' = .next u) :
    Tracks t u := by
  obtain ⟨-, -, -, rfl⟩ := submit_next.1 h
  obtain ⟨-, hs', -, rfl⟩ := submit_next.1 h'
  exact Tracks.goto rfl hs' trivial

end Sys2Proof.Machine

namespace Sys2Proof

open Machine

/-- Settles O54: the two runs track each other from SUBMIT on, and in DONE the digest is live. -/
theorem jobOutcomeIsIndependentOfThePast : Obligations.JobOutcomeIsIndependentOfThePast := by
  intro s s' a b j ha hb n t hr
  obtain ⟨t', hr', h⟩ := (tracks_of_submit ha hb).runEngine hr
  exact ⟨t', hr', h.seq, h.live .done⟩

end Sys2Proof
end

section
/-! What an operation reads (20_memory.md R57): its next state is a function of those bytes and the two lengths. -/

namespace Sys2Proof

/-- The bytes of a range depend on the reads at its offsets alone. -/
theorem Memory.readBytes_congr {mem mem' : Memory} {a n : Nat}
    (h : ∀ x ∈ List.range' a n, mem'.read x = mem.read x) : mem'.readBytes a n = mem.readBytes a n := by
  induction n generalizing a with
  | zero => rfl
  | succ n ih =>
    rw [List.range'_succ, List.forall_mem_cons] at h
    simp only [Memory.readBytes, h.1, ih h.2]

namespace Machine

variable {s t : State} {j j' : JobDescriptor}

/-- `MemRead` (20_memory.md R52) on two jobs with the same length of the space and the same bytes in the range. -/
theorem memRead_congr {sp : Space} {a n : Nat} (hj : s.job = some j) (hj' : t.job = some j')
    (hl : spaceLen j' sp = spaceLen j sp)
    (h : ∀ x ∈ List.range' a n, readByte sp x t = readByte sp x s) :
    memRead j' sp a n = memRead j sp a n := by
  unfold memRead
  rw [hl]
  split
  · next hn =>
    refine Memory.readBytes_congr fun x hx => ?_
    have hlt : x < spaceLen j sp := by
      have := List.mem_range'_1.1 hx
      omega
    simpa [readByte, hj, hj', hl, hlt] using h x hx
  · rfl

end Machine

open Machine

/-- Settles O26: the captured job is all there is of KEY and MSG, and no step writes it. -/
theorem engineWritesNoMemory : Obligations.EngineWritesNoMemory :=
  fun _ _ h => ⟨step_job h, readByte_congr (step_job h)⟩

/-- Settles O27: each guard reads a length, and each `MemRead` the bytes the operation is listed to read. -/
theorem operationsReadOnlyTheirBytes : Obligations.OperationsReadOnlyTheirBytes := by
  intro i s t j j' hj _ _ hk hd hbytes h
  have hread (sp : Space) {a n : Nat} (hl : spaceLen j' sp = spaceLen j sp)
      (hlisted : ∀ x ∈ List.range' a n, (sp, x) ∈ byteReads i s) :
      memRead j sp a n = memRead j' sp a n :=
    (memRead_congr hj rfl hl fun x hx => hbytes _ (hlisted x hx)).symm
  simp only [byteReads, hj] at hread
  cases i <;> simp only [exec] at h ⊢
  case idle =>
    obtain ⟨hs, rfl⟩ := execIdle_next.1 h
    exact execIdle_next.2 ⟨hs, rfl⟩
  case kchk =>
    obtain ⟨hs, _, hjob, rfl⟩ := execKchk_next.1 h
    obtain rfl := Option.some.inj (hj.symm.trans hjob)
    exact execKchk_next.2 ⟨hs, j', rfl, by rw [hk]; rfl⟩
  case init =>
    obtain ⟨_, b0, b1, hs, hjob, hlen, h0, h1, rfl⟩ := execInit_next.1 h
    obtain rfl := Option.some.inj (hj.symm.trans hjob)
    rw [hread .key hk fun x hx => List.mem_map_of_mem (List.mem_append_left _ hx)] at h0
    rw [hread .key hk fun x hx => List.mem_map_of_mem (List.mem_append_right _ hx)] at h1
    exact execInit_next.2 ⟨j', b0, b1, hs, rfl, hk.trans hlen, h0, h1, by rw [hd]; rfl⟩
  case ldblk =>
    obtain ⟨_, bs, hs, hjob, hlen, hb, rfl⟩ := execLdblk_next.1 h
    obtain rfl := Option.some.inj (hj.symm.trans hjob)
    rw [hread .msg hd fun x hx => List.mem_map_of_mem hx] at hb
    exact execLdblk_next.2 ⟨j', bs, hs, rfl, hd ▸ hlen, hb, rfl⟩
  case pack =>
    obtain ⟨_, bs, hs, hjob, hle, h7, hb, rfl⟩ := execPack_next.1 h
    obtain rfl := Option.some.inj (hj.symm.trans hjob)
    rw [hread .msg hd fun x hx => List.mem_map_of_mem hx] at hb
    rw [← hd] at hle h7 hb ⊢
    exact execPack_next.2 ⟨j', bs, hs, rfl, hle, h7, hb, rfl⟩
  case xin =>
    obtain ⟨hs, h2, rfl⟩ := execXin_next.1 h
    exact execXin_next.2 ⟨hs, h2, rfl⟩
  case rnd =>
    obtain ⟨hs, hcount, rfl⟩ := execRnd_next.1 h
    exact execRnd_next.2 ⟨hs, hcount, rfl⟩
  case xout =>
    obtain ⟨hs, h2, h0, ⟨_, hb, hjob, rfl⟩ | ⟨hb, rfl⟩⟩ := execXout_next.1 h
    · obtain rfl := Option.some.inj (hj.symm.trans hjob)
      exact execXout_next.2 ⟨hs, h2, h0, Or.inl ⟨j', hb, rfl, by rw [hd]; rfl⟩⟩
    · exact execXout_next.2 ⟨hs, h2, h0, Or.inr ⟨hb, rfl⟩⟩
  case fxor =>
    obtain ⟨hs, rfl⟩ := execFxor_next.1 h
    exact execFxor_next.2 ⟨hs, rfl⟩
  case out =>
    obtain ⟨hs, rfl⟩ := execOut_next.1 h
    exact execOut_next.2 ⟨hs, rfl⟩
  case done =>
    obtain ⟨hs, rfl⟩ := execDone_next.1 h
    exact execDone_next.2 ⟨hs, rfl⟩
  case err =>
    obtain ⟨hs, rfl⟩ := execErr_next.1 h
    exact execErr_next.2 ⟨hs, rfl⟩

end Sys2Proof
end

section
/-! The run of a whole job with a 16-byte key: KCHK and INIT, the full blocks, the tail word, the finalisation. -/

namespace Sys2Proof.Machine

variable {s : State} {j : JobDescriptor}

/-- The block loop's head (46_sequencer.md R191): the first `n` blocks are absorbed, the next block or the tail follows. -/
structure AtHead (j : JobDescriptor) (n : Nat) (s : State) : Prop where
  seq : s.seq = encode (blockSuccessor (8 * n) j.dataLen)
  stg : s.stg = Stage.block
  job : s.job = some j
  off : s.off = 8 * n
  v : s.v = absorbBlocks j.dataBytes (keyedAcc j.keyBytes) n

/-- `KCHK` and `INIT` read the key in order and bring the job to the head of its block loop. -/
theorem runs_key (hi : s.seq = encode .kchk) (hs : s.stg ≠ Stage.reserved) (hj : s.job = some j)
    (hw : j.wf) (hk : j.keyLen = 16) :
    ∃ t, Runs 2 s [.kchk, .init] ((List.range 16).map (Space.key, ·)) t ∧ AtHead j 0 t := by
  have hkchk : exec .kchk s = .next (goto .init s) :=
    execKchk_next.2 ⟨hs, j, hj, by rw [if_pos hk]⟩
  have hinit := (execInit_next (s := goto .init s)).2 ⟨j, _, _, hs, hj, hk,
    memRead_wf hw (by simp [spaceLen, hk]), memRead_wf hw (by simp [spaceLen, hk]), rfl⟩
  have hreads : byteReads .init (goto .init s) = (List.range 16).map (Space.key, ·) := by
    simp only [byteReads, goto_job, hj]
    rfl
  have hrun := Runs.cons (i := .init) rfl rfl hinit (Runs.nil _)
  rw [hreads, List.append_nil] at hrun
  exact ⟨_, Runs.cons' hi (by simp [busy, hi]) rfl hkchk hrun, rfl, rfl, hj, rfl, rfl⟩

/-- One turn of the block loop. -/
theorem AtHead.runs_block {k : Nat} (h : AtHead j k s) (hw : j.wf) (hk : 8 * k + 8 ≤ j.dataLen) :
    ∃ t, Runs 5 s absorbOps ((List.range' (8 * k) 8).map (Space.msg, ·)) t ∧ AtHead j (k + 1) t := by
  have hi : s.seq = encode .ldblk := by rw [h.seq, blockSuccessor_pos hk]
  have hrun := runs_absorb s j hi h.stg h.job hw (h.off ▸ hk)
  rw [h.off] at hrun
  exact ⟨_, hrun, rfl, h.stg, h.job, rfl, by rw [h.v]; rfl⟩

/-- `n` turns of the block loop read `8 * n` message bytes in order. -/
theorem AtHead.runs_blocks (n : Nat) {k : Nat} (h : AtHead j k s) (hw : j.wf)
    (hn : k + n ≤ j.dataLen / 8) :
    ∃ t, Runs (5 * n) s (absorbOpsTimes n) ((List.range' (8 * k) (8 * n)).map (Space.msg, ·)) t ∧
      AtHead j (k + n) t := by
  induction n generalizing s k with
  | zero => exact ⟨s, Runs.nil s, h⟩
  | succ n ih =>
    obtain ⟨u, hrun, hu⟩ := h.runs_block hw (by omega)
    obtain ⟨t, hrun', ht⟩ := ih hu (by omega)
    have hall := hrun.append hrun'
    rw [← List.map_append, Nat.mul_succ, List.range'_append_1, Nat.add_comm 8,
      Nat.add_comm 5] at hall
    exact ⟨t, hall, by rwa [Nat.add_right_comm] at ht⟩

/-- From the head with no further block: the tail bytes are read and absorbed, and the digest is `sum64`. -/
theorem AtHead.runs_end (h : AtHead j (j.dataLen / 8) s) (hw : j.wf) (hk : j.keyLen = 16) :
    ∃ t, Runs 11 s (tailOps ++ finalizeOps)
        ((List.range' (8 * (j.dataLen / 8)) (j.dataLen % 8)).map (Space.msg, ·)) t ∧
      t.seq = encode .done ∧ t.stg = Stage.final ∧ sum64 j.keyBytes j.dataBytes = some t.digest := by
  have hi : s.seq = encode .pack := by rw [h.seq, blockSuccessor_neg (by omega)]
  have htail := runs_tail s j hi h.stg h.job hw h.off
  obtain ⟨t, hfin, hseq, hdigest, -, hstg⟩ := runs_finalize
    (goto .fxor
      { s with
        v := compress s.v (lastWord j.dataBytes)
        m := lastWord j.dataBytes
        rc := 0
        stg := Stage.tail
        off := j.dataLen })
    rfl (by simp)
  have hrun := htail.append hfin
  rw [List.append_nil, h.off, show j.dataLen - 8 * (j.dataLen / 8) = j.dataLen % 8 by omega] at hrun
  refine ⟨t, hrun, hseq, hstg, ?_⟩
  rw [hdigest, sum64, if_pos ((JobDescriptor.keyBytes_length hw).trans hk), absorbAll, absorbFull,
    JobDescriptor.dataBytes_length hw, ← h.v]
  rfl

/-- A whole job (46_sequencer.md R198, R200): its operations, the bytes it reads, and its digest. -/
theorem runs_job (hi : s.seq = encode .kchk) (hs : s.stg ≠ Stage.reserved) (hj : s.job = some j)
    (hw : j.wf) (hk : j.keyLen = 16) :
    ∃ t, Runs (13 + 5 * (j.dataLen / 8)) s (sum64Ops j.keyLen j.dataLen)
        ((List.range 16).map (Space.key, ·) ++ (List.range j.dataLen).map (Space.msg, ·)) t ∧
      t.seq = encode .done ∧ t.stg = Stage.final ∧ sum64 j.keyBytes j.dataBytes = some t.digest := by
  obtain ⟨a, hkey, ha⟩ := runs_key hi hs hj hw hk
  obtain ⟨b, hblocks, hb⟩ := ha.runs_blocks (j.dataLen / 8) hw (by omega)
  rw [Nat.zero_add] at hb
  obtain ⟨t, hend, ht⟩ := hb.runs_end hw hk
  have hmsg : List.range' (8 * 0) (8 * (j.dataLen / 8)) ++
      List.range' (8 * (j.dataLen / 8)) (j.dataLen % 8) = List.range j.dataLen := by
    rw [List.range_eq_range', Nat.mul_zero]
    simpa only [Nat.zero_add, Nat.div_add_mod] using
      List.range'_append_1 (s := 0) (m := 8 * (j.dataLen / 8)) (n := j.dataLen % 8)
  have hrun := hkey.append (hblocks.append hend)
  rw [← List.map_append, hmsg,
    show 2 + (5 * (j.dataLen / 8) + 11) = 13 + 5 * (j.dataLen / 8) by omega] at hrun
  refine ⟨t, ?_, ht⟩
  simpa [sum64Ops, hk] using hrun

end Sys2Proof.Machine

namespace Sys2Proof

open Machine

/-- Settles O57: the reads are those of the whole job's run. -/
theorem everyInputByteIsReadOnceInOrder : Obligations.EveryInputByteIsReadOnceInOrder := by
  intro s j hi hs hj hw hk
  obtain ⟨t, hrun, -⟩ := runs_job hi hs hj hw hk
  exact hrun.bytesRead

end Sys2Proof
end

section
/-! The operation map as a whole (30_encoding.md R70, R71, R78): named codes are those of operations, the others are
rejected. -/

namespace Sys2Proof.Machine

variable {c : OpCode} {s : State}

/-- A named code is the code of an operation. -/
theorem exists_encode_of_named (h : c ≤ 0xB#4) : ∃ i, c = encode i := by
  have named : ∀ c : OpCode, c ≤ 0xB#4 → (decode c).toOption.isSome = true := by decide
  cases hd : decode c with
  | ok i => exact ⟨i, (encode_of_decode hd).symm⟩
  | error e =>
    have hok := named c h
    simp [hd, Except.toOption] at hok

theorem decode_reserved (h : 0xC#4 ≤ c) : decode c = .error (.reserved c) := by
  have codes : ∀ c : OpCode, 0xC#4 ≤ c → c = 0xC#4 ∨ c = 0xD#4 ∨ c = 0xE#4 ∨ c = 0xF#4 := by decide
  rcases codes c h with rfl | rfl | rfl | rfl <;> rfl

theorem reserved_of_not_named (h : ¬ c ≤ 0xB#4) : 0xC#4 ≤ c := by
  revert c
  decide

theorem reservedSeq_of_named (h : s.seq ≤ 0xB#4) : reservedSeq s = false := by
  have codes : ∀ c : OpCode, c ≤ 0xB#4 → ¬ 0xC#4 ≤ c := by decide
  simpa [reservedSeq] using codes _ h

theorem step_reservedSeq (h : 0xC#4 ≤ s.seq) : step s = .fault .reservedSeq := by
  simp [step, decode_reserved h]

theorem whenNamed_reservedSeq {α : Type} {k : Host.Outcome α Fault Refusal} (h : 0xC#4 ≤ s.seq) :
    whenNamed s k = .fault .reservedSeq :=
  if_pos (by simpa [reservedSeq] using h)

/-- What is not enabled faults, as no operation is refused (60_exceptions.md R215). -/
theorem exec_faults {i : Instr} (h : ∀ t, exec i s ≠ .next t) : ∃ f, exec i s = .fault f := by
  cases he : exec i s with
  | next t => exact absurd he (h t)
  | fault f => exact ⟨f, rfl⟩
  | refused e => exact absurd he (exec_not_refused i s e)

end Sys2Proof.Machine

namespace Sys2Proof

open Machine

/-- Settles O1: the twelve rows of the map by evaluation, the reserved row by its four codes. -/
theorem operationCodesDecodeAsMapped : Obligations.OperationCodesDecodeAsMapped :=
  ⟨⟨rfl, rfl, rfl, rfl, rfl, rfl, rfl, rfl, rfl, rfl, rfl, rfl⟩, fun _ => decode_reserved⟩

/-- Settles O2: the decoder inverts the encoder, and no code decodes to an operation with another code. -/
theorem decodeInvertsEncode : Obligations.DecodeInvertsEncode :=
  ⟨decode_encode, fun _ _ => encode_of_decode⟩

/-- Settles O4: neither the decoder nor the host port lets a reserved code pass. -/
theorem reservedSeqCodeFaults : Obligations.ReservedSeqCodeFaults :=
  fun _ h => ⟨step_reservedSeq h, fun _ => whenNamed_reservedSeq h, whenNamed_reservedSeq h,
    whenNamed_reservedSeq h, State.reset, rfl, rfl, rfl⟩

/-- Settles O29: every operation asks for a named stage first, the host port after a named `seq`. -/
theorem reservedStageFaults : Obligations.ReservedStageFaults := by
  intro s hs
  have hexec (i : Instr) : exec i s = .fault .reservedStage := exec_reservedStage i hs
  have hstep (h : s.seq ≤ 0xB#4) : step s = .fault .reservedStage := by
    obtain ⟨i, hi⟩ := exists_encode_of_named h
    rw [step_atOp hi, hexec]
  refine ⟨hexec, ?_, fun h => ?_, State.reset, rfl, rfl, rfl⟩
  · by_cases h : s.seq ≤ 0xB#4
    · exact ⟨_, hstep h⟩
    · exact ⟨_, step_reservedSeq (reserved_of_not_named h)⟩
  · have hseq := reservedSeq_of_named h
    exact ⟨hstep h, fun _ => whenNamed_reservedStage hseq hs, whenNamed_reservedStage hseq hs,
      whenNamed_reservedStage hseq hs⟩

/-- Settles O28: an operation that goes on meets its guards, and each listed combination fails one of them. -/
theorem unreachableCombinationsFault : Obligations.UnreachableCombinationsFault := by
  intro s
  refine ⟨fun hrc => ?_, fun hstg => ⟨⟨_, exec_reservedStage _ hstg⟩, _, exec_reservedStage _ hstg⟩,
    fun hstg => ?_, fun j hj hoff => ?_, fun j hj hoff => ?_, fun j hj hk => ?_⟩ <;>
    refine exec_faults fun t h => ?_
  · obtain ⟨-, ⟨hpending, -⟩, -⟩ := execRnd_next.1 h
    exact hpending hrc
  · obtain ⟨-, hfinal, -⟩ := execXout_next.1 h
    exact hfinal hstg
  · obtain ⟨j', -, -, hj', hle, -⟩ := execLdblk_next.1 h
    obtain rfl := Option.some.inj (hj.symm.trans hj')
    omega
  · obtain ⟨j', -, -, hj', hle, h7, -⟩ := execPack_next.1 h
    obtain rfl := Option.some.inj (hj.symm.trans hj')
    omega
  · obtain ⟨j', -, -, -, hj', hlen, -⟩ := execInit_next.1 h
    obtain rfl := Option.some.inj (hj.symm.trans hj')
    exact hk hlen

end Sys2Proof
end

section
/-! The data formats KEY16, BLOCK8 and MLAST (30_encoding.md R73, R74, R75), byte lane by byte lane. -/

namespace Sys2Proof.Machine

variable {s : State} {j : JobDescriptor} {sp : Space} {a n i : Nat} {bs : List Byte}

theorem memRead_some_iff (hw : j.wf) :
    memRead j sp a n = some bs ↔
      a + n ≤ spaceLen j sp ∧ ((spaceBytes j sp).drop a).take n = bs := by
  by_cases hn : a + n ≤ spaceLen j sp
  · simp [memRead_wf hw hn, hn]
  · simp [memRead, hn]

theorem memRead_length (hw : j.wf) (h : memRead j sp a n = some bs) : bs.length = n := by
  obtain ⟨hn, rfl⟩ := (memRead_some_iff hw).1 h
  rw [← spaceBytes_length hw] at hn
  simp only [List.length_take, List.length_drop]
  omega

/-- Byte `i` of a `MemRead` is the byte at offset `a + i` (20_memory.md R52). -/
theorem readByte_of_memRead (hj : s.job = some j) (hw : j.wf) (h : memRead j sp a n = some bs)
    (hi : i < n) : readByte sp (a + i) s = bs[i]? := by
  obtain ⟨-, rfl⟩ := (memRead_some_iff hw).1 h
  rw [readByte_wf hj hw, List.getElem?_take_of_lt hi, List.getElem?_drop]

/-- The same byte, as the byte lane value `(bs[i]?).getD 0` of the word formats. -/
theorem readByte_eq_lane (hj : s.job = some j) (hw : j.wf) (h : memRead j sp a n = some bs)
    (hi : i < n) : readByte sp (a + i) s = some ((bs[i]?).getD 0) := by
  have hlen : i < bs.length := (memRead_length hw h).symm ▸ hi
  rw [readByte_of_memRead hj hw h hi, List.getElem?_eq_getElem hlen, Option.getD_some]

/-- Byte lane `i` of the word made of a `MemRead`. -/
theorem readByte_eq_le64_lane (hj : s.job = some j) (hw : j.wf) (h : memRead j sp a 8 = some bs)
    (hi : i < 8) : readByte sp (a + i) s = some ((le64 bs).extractLsb' (8 * i) 8) := by
  rw [le64_lane bs i hi, readByte_eq_lane hj hw h hi]

/-- Exclusive-or with a constant twice gives back the key word (41_init.md R120). -/
theorem xor_xor_initConstant (c k : Word) : c ^^^ k ^^^ c = k := by
  rw [BitVec.xor_comm c k, BitVec.xor_assoc, BitVec.xor_self, BitVec.xor_zero]

end Sys2Proof.Machine

namespace Sys2Proof

open Machine

/-- Settles O17: without the constants the accumulator's words are the two `LE64` words of the key. -/
theorem keyWordsTakeKeyBytesLittleEndian : Obligations.KeyWordsTakeKeyBytesLittleEndian := by
  intro s t j hj hw h i hi
  obtain ⟨j', b0, b1, -, hj', -, h0, h1, rfl⟩ := execInit_next.1 h
  obtain rfl := Option.some.inj (hj.symm.trans hj')
  have k0 := readByte_eq_le64_lane hj hw h0 hi
  have k1 := readByte_eq_le64_lane hj hw h1 hi
  rw [Nat.zero_add] at k0
  simp only [goto_v, initAcc, xor_xor_initConstant]
  exact ⟨k0, k0, k1, k1⟩

/-- Settles O18: `m` is the `LE64` word of the eight bytes read. -/
theorem blockWordTakesMessageBytesLittleEndian :
    Obligations.BlockWordTakesMessageBytesLittleEndian := by
  intro s t j hj hw h i hi
  obtain ⟨j', bs, -, hj', -, hb, rfl⟩ := execLdblk_next.1 h
  obtain rfl := Option.some.inj (hj.symm.trans hj')
  exact readByte_eq_le64_lane hj hw hb hi

/-- Settles O19: the lanes of the tail word, where as many tail bytes are read as the tail count says. -/
theorem tailWordHoldsTailBytesAndLength : Obligations.TailWordHoldsTailBytesAndLength := by
  intro s t j hj hw hhead h
  obtain ⟨j', bs, -, hj', -, h7, hb, rfl⟩ := execPack_next.1 h
  obtain rfl := Option.some.inj (hj.symm.trans hj')
  have hlen : bs.length = j.dataLen - s.off := memRead_length hw hb
  have hlane := tailWord_lane j.dataLen bs (hlen ▸ h7)
  refine ⟨hlane 7 (by omega), fun i hi => ?_⟩
  rw [goto_m, hlane i (by omega), if_neg hi.ne]
  refine ⟨fun ht => readByte_eq_lane hj hw hb (by omega), fun ht => ?_⟩
  rw [List.getElem?_eq_none (by omega)]
  rfl

end Sys2Proof
end

section
/-! The trace of a job (30_encoding.md R82). -/

namespace Sys2Proof.Machine

variable {s : State} {j : JobDescriptor}

/-- With a key of another length the job is over after KCHK (60_exceptions.md R213). -/
theorem runs_invalidKey (hi : s.seq = encode .kchk) (hs : s.stg ≠ Stage.reserved)
    (hj : s.job = some j) (hk : j.keyLen ≠ 16) : Runs 1 s [.kchk] [] (goto .err s) :=
  Runs.cons' hi (by simp [busy, hi]) rfl (execKchk_next.2 ⟨hs, j, hj, by rw [if_neg hk]⟩)
    (Runs.nil _)

end Sys2Proof.Machine

namespace Sys2Proof

open Machine

/-- Settles O55: the trace is that of the whole job's run, or of the one KCHK that ends in ERR. -/
theorem jobTraceIsTheSum64Expansion : Obligations.JobTraceIsTheSum64Expansion := by
  intro s j hi hs hj hw
  by_cases hk : j.keyLen = 16
  · obtain ⟨t, hrun, -⟩ := runs_job hi hs hj hw hk
    rw [hrun.length, hrun.trace]
  · have hops : sum64Ops j.keyLen j.dataLen = [.kchk] := if_neg hk
    rw [hops]
    exact (runs_invalidKey hi hs hj hk).trace

end Sys2Proof
end

section
/-! The statements about job control (40_job_control.md): the engine's step, the quiescent codes, KCHK and the host's
transactions on the named codes. -/

namespace Sys2Proof.Machine

variable {s : State}

/-- In the three quiescent codes the step goes on to the state it was given (log 3). -/
theorem step_quiescent (hq : quiescent s = true) (hs : s.stg ≠ Stage.reserved) : step s = .next s := by
  rcases quiescent_iff.1 hq with h | h | h
  · exact (step_atOp (i := .idle) h).trans (execIdle_next.2 ⟨hs, rfl⟩)
  · exact (step_atOp (i := .done) h).trans (execDone_next.2 ⟨hs, rfl⟩)
  · exact (step_atOp (i := .err) h).trans (execErr_next.2 ⟨hs, rfl⟩)

theorem readStatus_named (h : s.seq ≤ 0xB#4) (hs : s.stg ≠ Stage.reserved) :
    readStatus s = .next (status s, cause s) :=
  whenNamed_named (reservedSeq_of_named h) hs

theorem readStatus_idle (h : s.seq = 0x0#4) (hs : s.stg ≠ Stage.reserved) :
    readStatus s = .next (0#2, 0#1) := by
  rw [readStatus_named (by simp [h]) hs]
  simp [status, cause, idleFlag, errFlag, h]

theorem readStatus_done (h : s.seq = 0xA#4) (hs : s.stg ≠ Stage.reserved) :
    readStatus s = .next (2#2, 0#1) := by
  rw [readStatus_named (by simp [h]) hs]
  simp [status, cause, idleFlag, doneFlag, errFlag, h]

theorem readStatus_err (h : s.seq = 0xB#4) (hs : s.stg ≠ Stage.reserved) :
    readStatus s = .next (3#2, 1#1) := by
  rw [readStatus_named (by simp [h]) hs]
  simp [status, cause, idleFlag, doneFlag, errFlag, h]

/-- While BUSY no quiescent code's signal holds, so `status` takes its last branch and `cause` is 0. -/
theorem readStatus_busy (hb : busy s = true) (hs : s.stg ≠ Stage.reserved) :
    readStatus s = .next (1#2, 0#1) := by
  have hq : ¬ quiescent s = true := fun hq => (quiescent_iff_not.1 hq).2 hb
  have hnamed : s.seq ≤ 0xB#4 := BitVec.le_trans (busy_iff.1 hb).2 (by decide)
  simp only [quiescent, Bool.or_eq_true, not_or] at hq
  obtain ⟨⟨hidle, hdone⟩, herr⟩ := hq
  rw [readStatus_named hnamed hs, status, cause, if_neg hidle, if_neg hdone, if_neg herr, if_neg herr]

theorem readDigest_done (h : s.seq = 0xA#4) (hs : s.stg ≠ Stage.reserved) :
    readDigest s = .next s.digest :=
  (whenNamed_named (reservedSeq_of_named (by simp [h])) hs).trans (if_pos (doneFlag_iff.2 h))

theorem readDigest_not_done (h : s.seq ≤ 0xB#4) (hd : s.seq ≠ 0xA#4) (hs : s.stg ≠ Stage.reserved) :
    readDigest s = .refused .digestNotReady :=
  (whenNamed_named (reservedSeq_of_named h) hs).trans (if_neg (doneFlag_iff.not.2 hd))

end Sys2Proof.Machine

namespace Sys2Proof

open Machine

/-- Settles O33, by induction on the number of steps: each one leaves the state quiescent as it was. -/
theorem quiescentEngineWaitsForTheHost : Obligations.QuiescentEngineWaitsForTheHost := by
  intro n s hq hs
  induction n with
  | zero => rfl
  | succ n ih => exact runEngine_succ_next.2 ⟨s, step_quiescent hq hs, ih⟩

/-- Settles O3: a code that decodes is that of its operation. -/
theorem stepRunsTheOperationInSeq : Obligations.StepRunsTheOperationInSeq :=
  fun _ _ hd _ => step_atOp (encode_of_decode hd).symm

/-- Settles O5: the named stage is all the three codes ask for. -/
theorem quiescentCodesChangeNothing : Obligations.QuiescentCodesChangeNothing :=
  fun _ hs => ⟨execIdle_next.2 ⟨hs, rfl⟩, execDone_next.2 ⟨hs, rfl⟩, execErr_next.2 ⟨hs, rfl⟩⟩

/-- Settles O7: KCHK is a `goto` to INIT or to ERR, and in ERR the ports answer by `seq` alone. -/
theorem kchkChecksTheKeyLength : Obligations.KchkChecksTheKeyLength := by
  intro s j hj hs
  refine ⟨fun hk => ?_, fun hk => ⟨goto .err s, ?_, rfl, readStatus_err rfl hs, rfl, rfl, rfl, ?_⟩, rfl⟩
  · exact execKchk_next.2 ⟨hs, j, hj, by rw [if_pos hk]; rfl⟩
  · exact execKchk_next.2 ⟨hs, j, hj, by rw [if_neg hk]⟩
  · exact readDigest_not_done (by simp) (by simp) hs

/-- Settles O34: a quiescent state takes the descriptor, and at KCHK the engine is busy. -/
theorem submitCapturesTheJob : Obligations.SubmitCapturesTheJob := by
  intro s j hseq hs hw
  refine ⟨goto .kchk { s with job := some j }, ?_, rfl, readStatus_busy rfl hs, rfl, rfl, ?_⟩
  · exact submit_next.2 ⟨quiescent_iff.2 hseq, hs, hw, rfl⟩
  · exact readDigest_not_done (by simp) (by simp) hs

/-- Settles O36: the read answers by the code, and the transaction gives back the state it was given. -/
theorem readStatusDecodesSeq : Obligations.ReadStatusDecodesSeq := by
  refine fun s hs => ⟨fun h => readStatus_idle h hs, fun h1 h9 => readStatus_busy (busy_iff.2 ⟨h1, h9⟩) hs,
    fun h => readStatus_done h hs, fun h => readStatus_err h hs, fun h => ?_⟩
  simp only [act, hostStep, readStatus_named h hs]

/-- Settles O37: the port asks for DONE, and the transaction gives back the state it was given. -/
theorem readDigestOnlyWhenDone : Obligations.ReadDigestOnlyWhenDone := by
  refine fun s hs => ⟨fun h => ⟨readDigest_done h hs, ?_⟩, fun h hd => readDigest_not_done h hd hs⟩
  simp only [hostStep, readDigest_done h hs]

end Sys2Proof
end

section
/-! The statement about the initialisation (41_init.md R120). -/

namespace Sys2Proof.Machine

theorem encode_blockSuccessor (off len : Nat) :
    encode (blockSuccessor off len) = if off + 8 ≤ len then 0x3#4 else 0x4#4 := by
  by_cases h : off + 8 ≤ len
  · rw [blockSuccessor_pos h, if_pos h, encode_ldblk]
  · rw [blockSuccessor_neg h, if_neg h, encode_pack]

/-- With a 16-byte key `INIT` goes on, and the two `MemRead`s give the halves of the key (41_init.md R120). -/
theorem execInit_wf {s : State} {j : JobDescriptor} (hj : s.job = some j) (hw : j.wf)
    (hk : j.keyLen = 16) (hs : s.stg ≠ Stage.reserved) :
    execInit s = .next (goto (blockSuccessor 0 j.dataLen)
      { s with
        v := initAcc Config.initConstants (le64 (j.keyBytes.take 8))
          (le64 ((j.keyBytes.drop 8).take 8))
        off := 0
        stg := Stage.block }) :=
  execInit_next.2 ⟨j, _, _, hs, hj, hk, memRead_wf hw (by simp [spaceLen, hk]),
    memRead_wf hw (by simp [spaceLen, hk]), rfl⟩

end Sys2Proof.Machine

namespace Sys2Proof

open Machine

/-- Settles O9: the accumulator, `off` and `stg` are those of `execInit_wf`, and `seq` is the code of the block-loop test
at offset 0. -/
theorem initLoadsTheAccumulator : Obligations.InitLoadsTheAccumulator := by
  intro s j hj hw hk hs
  have hseq := encode_blockSuccessor 0 j.dataLen
  rw [Nat.zero_add] at hseq
  rw [← hseq]
  exact execInit_wf hj hw hk hs

end Sys2Proof
end

section
/-! The statements about block ingestion (42_compress.md) and about the conditions under which an operation is enabled. -/

namespace Sys2Proof.Machine

variable {s : State}

/-- BLOCK and TAIL are the two stages `XIN` and `XOUT` ask for (42_compress.md R131, R132). -/
theorem absorbing_stage (h : s.stg = 0#2 ∨ s.stg = 1#2) :
    s.stg ≠ Stage.reserved ∧ s.stg ≠ Stage.final := by
  rcases h with h | h <;> simp [h]

theorem burstLength_absorbing (h : s.stg = 0#2 ∨ s.stg = 1#2) : burstLength s.stg = 2#3 :=
  if_neg (absorbing_stage h).2

theorem burstLength_final (h : s.stg = 2#2) : burstLength s.stg = 4#3 :=
  if_pos h

/-- More rounds than the stage's burst has (log 10). -/
theorem execRnd_beyondBurst (hs : s.stg ≠ Stage.reserved) (h : burstLength s.stg < s.rc) :
    execRnd s = .fault .roundCount :=
  (require_pos hs).trans (require_neg fun hrc => BitVec.not_le.2 h hrc.2)

theorem execXin_final (h : s.stg = Stage.final) : execXin s = .fault .stageNotAbsorbing :=
  (require_pos (by simp [h])).trans (require_neg (not_not.2 h))

theorem execXout_roundsPending (h : s.stg = 0#2 ∨ s.stg = 1#2) (hrc : s.rc ≠ 0) :
    execXout s = .fault .roundsPending :=
  have ⟨hs, hf⟩ := absorbing_stage h
  (require_pos hs).trans <| (require_pos hf).trans <| require_neg hrc

/-- In stage BLOCK the choice of `XOUT`'s successor reads the job (10_state.md R24, log 14). -/
theorem execXout_noJob (h : s.stg = Stage.block) (hrc : s.rc = 0) (hj : s.job = none) :
    execXout s = .fault .noJob :=
  have ⟨hs, hf⟩ := absorbing_stage (.inl h)
  (require_pos hs).trans <| (require_pos hf).trans <| (require_pos hrc).trans <|
    (if_pos h).trans (withJob_none hj)

end Sys2Proof.Machine

namespace Sys2Proof

open Machine

/-- Settles O49: the bracket is the run `runs_compress`. In stage TAIL it reads no job, so any job stands for the captured
one. -/
theorem compressBracketComputesCompress : Obligations.CompressBracketComputesCompress := by
  intro s hi h
  obtain ⟨j, hs, hj⟩ : ∃ j, (s.stg = Stage.block ∨ s.stg = Stage.tail) ∧
      (s.stg = Stage.block → s.job = some j) := by
    rcases h with ⟨hblock, hsome⟩ | htail
    · obtain ⟨j, hj⟩ := Option.isSome_iff_exists.1 hsome
      exact ⟨j, .inl hblock, fun _ => hj⟩
    · exact ⟨placedJob, .inr htail, fun hblock => by simp [htail] at hblock⟩
  have hrun := runs_compress s j hi hs hj
  exact ⟨hrun.trace, _, hrun.runEngine, rfl, rfl, rfl, rfl⟩

/-- Settles O10: the `MemRead` of the eight bytes at `off` is defined, and gives those of the message. -/
theorem ldblkLoadsTheNextBlock : Obligations.LdblkLoadsTheNextBlock :=
  fun _ j hj hw hs hoff => execLdblk_next.2 ⟨j, _, hs, hj, hoff, memRead_wf hw hoff, rfl⟩

/-- Settles O12: the two stages in which `XIN` goes on. -/
theorem xinXorsIntoV3AndArmsTwoRounds : Obligations.XinXorsIntoV3AndArmsTwoRounds := by
  intro s h
  obtain ⟨hs, hf⟩ := absorbing_stage h
  exact execXin_next.2 ⟨hs, hf, rfl⟩

/-- Settles O14: in BLOCK `seq` is the code of the block-loop test, in TAIL that of `FXOR`, and the other two stages fail a
guard. -/
theorem xoutXorsIntoV0AndChoosesTheSuccessor :
    Obligations.XoutXorsIntoV0AndChoosesTheSuccessor := by
  intro s hrc
  refine ⟨fun j hb hj => ?_, fun ht => ?_, fun hb ht => exec_faults fun t h => ?_⟩
  · obtain ⟨hs, hf⟩ := absorbing_stage (.inl hb)
    rw [← encode_blockSuccessor]
    exact execXout_next.2 ⟨hs, hf, hrc, .inl ⟨j, hb, hj, rfl⟩⟩
  · obtain ⟨hs, hf⟩ := absorbing_stage (.inr ht)
    exact execXout_next.2 ⟨hs, hf, hrc, .inr ⟨by simp [ht], rfl⟩⟩
  · obtain ⟨hs, hf, -⟩ := execXout_next.1 h
    rcases stage_cases _ hs with h0 | h1 | h2
    · exact hb h0
    · exact ht h1
    · exact hf h2

/-- Settles O30: the guards of each operation in their order, up to the one that fails. -/
theorem operationsFaultWhereNotEnabled : Obligations.OperationsFaultWhereNotEnabled := by
  refine fun s => ⟨fun h hrc => ?_, fun h hrc => ?_, execXin_final, execXout_roundsPending,
    fun hj => ⟨fun hs => ?_, fun hb hrc => execXout_noJob hb hrc hj⟩⟩
  · exact execRnd_beyondBurst (absorbing_stage h).1 (burstLength_absorbing h ▸ hrc)
  · exact execRnd_beyondBurst (by simp [h]) (burstLength_final h ▸ hrc)
  · have noJob (k : JobDescriptor → Result) :
        require (s.stg ≠ Stage.reserved) .reservedStage (withJob s k) = .fault .noJob :=
      (require_pos hs).trans (withJob_none hj)
    exact ⟨noJob _, noJob _, noJob _, noJob _⟩

end Sys2Proof
end

section
/-! The tail word (43_tail.md R150, R151): its value as a sum, and the operation that builds it. -/

namespace Sys2Proof.Machine

/-- `LE64` of `n` bytes has no bit at or above `8 * n` (00_scope.md R11). -/
theorem le64_toNat_lt (bs : List Byte) : (le64 bs).toNat < 2 ^ (8 * bs.length) := by
  refine Nat.lt_pow_two_of_testBit _ fun k hk => ?_
  rw [BitVec.testBit_toNat, le64_getLsbD, List.getElem?_eq_none (by omega)]
  simp

/-- A byte in front goes below all the others, and no carry leaves its lane. -/
theorem le64_cons_toNat (b : Byte) (bs : List Byte) (h : bs.length < 8) :
    (le64 (b :: bs)).toNat = (le64 bs).toNat * 2 ^ 8 + b.toNat := by
  have hfit : (le64 bs).toNat * 2 ^ 8 < 2 ^ 64 :=
    calc (le64 bs).toNat * 2 ^ 8
      _ < 2 ^ (8 * bs.length) * 2 ^ 8 := Nat.mul_lt_mul_of_pos_right (le64_toNat_lt bs) (by decide)
      _ = 2 ^ (8 * bs.length + 8) := (Nat.pow_add ..).symm
      _ ≤ 2 ^ 64 := Nat.pow_le_pow_right (by decide) (by omega)
  rw [le64, BitVec.toNat_or, BitVec.toNat_setWidth_of_le (by decide), BitVec.toNat_shiftLeft,
    Nat.shiftLeft_eq, Nat.mod_eq_of_lt hfit, Nat.or_comm, ← Nat.shiftLeft_eq,
    ← Nat.shiftLeft_add_eq_or_of_lt b.isLt]

/-- `LE64` of at most eight bytes is their sum in base 256, the first byte lowest (00_scope.md R11). -/
theorem le64_toNat_eq_sum (bs : List Byte) (h : bs.length ≤ 8) :
    (le64 bs).toNat = ∑ i ∈ Finset.range bs.length, (bs.getD i 0#8).toNat * 2 ^ (8 * i) := by
  induction bs with
  | nil => rfl
  | cons b bs ih =>
    rw [List.length_cons] at h
    have hpow (i : Nat) : 2 ^ (8 * (i + 1)) = 2 ^ (8 * i) * 2 ^ 8 := Nat.pow_add 2 (8 * i) 8
    rw [le64_cons_toNat b bs (by omega), ih (by omega), List.length_cons, Finset.sum_range_succ',
      Finset.sum_mul]
    simp only [List.getD_cons_succ, List.getD_cons_zero, hpow, Nat.mul_assoc, Nat.mul_zero,
      Nat.pow_zero, Nat.mul_one]

/-- The length byte fits bits 63:56, so shifting it there loses nothing (30_encoding.md R75). -/
theorem lengthByteWord_toNat (len : Nat) : (lengthByteWord len).toNat = len % 256 * 2 ^ 56 := by
  rw [lengthByteWord, BitVec.toNat_shiftLeft, BitVec.toNat_ofNat, Nat.shiftLeft_eq]
  omega

/-- At most seven tail bytes stay below bit 56, so the tail word's or is a sum (30_encoding.md R75). -/
theorem tailWord_toNat (len : Nat) (tail : List Byte) (h : tail.length ≤ 7) :
    (tailWord len tail).toNat = len % 256 * 2 ^ 56 + (le64 tail).toNat := by
  have hlow : (le64 tail).toNat < 2 ^ 56 :=
    (le64_toNat_lt tail).trans_le (Nat.pow_le_pow_right (by decide) (by omega))
  rw [tailWord, BitVec.toNat_or, lengthByteWord_toNat, ← Nat.shiftLeft_eq,
    ← Nat.shiftLeft_add_eq_or_of_lt hlow]

/-- `MemRead` of all bytes of a space from `a` on (20_memory.md R52). -/
theorem memRead_toEnd {j : JobDescriptor} (hw : j.wf) {sp : Space} {a : Nat}
    (h : a ≤ spaceLen j sp) :
    memRead j sp a (spaceLen j sp - a) = some ((spaceBytes j sp).drop a) :=
  (memRead_some_iff hw).2
    ⟨by omega, List.take_of_length_le (by rw [List.length_drop, spaceBytes_length hw])⟩

end Sys2Proof.Machine

namespace Sys2Proof

open Machine

/-- Settles O20: the tail has `L mod 8` bytes, so the length byte and the tail bytes do not overlap and add up. -/
theorem tailWordArithmeticValue : Obligations.TailWordArithmeticValue := by
  intro data
  have hlen : (data.drop (8 * (data.length / 8))).length = data.length % 8 := by
    rw [List.length_drop]
    omega
  rw [lastWord, tailWord_toNat _ _ (by omega), le64_toNat_eq_sum _ (by omega), hlen]
  simp only [List.getD_eq_getElem?_getD, List.getElem?_drop]

/-- Settles O11: the `MemRead` of the bytes left is defined, and gives those of the message from `off` on. -/
theorem packBuildsTheTailWord : Obligations.PackBuildsTheTailWord :=
  fun _ j hj hw hs hle h7 =>
    execPack_next.2 ⟨j, _, hs, hj, hle, h7, memRead_toEnd (sp := .msg) hw hle, rfl⟩

end Sys2Proof
end

section
/-! The statements about finalisation (44_finalize.md): the bracket and its two operations. -/

namespace Sys2Proof

open Machine

/-- Settles O50: the bracket is the run `runs_finalize`, whose trace is the expansion of `FINALIZE` (30_encoding.md R82). -/
theorem finalizeBracketComputesFinalize : Obligations.FinalizeBracketComputesFinalize := by
  intro s hi hs
  obtain ⟨t, hrun, hdone, hdigest, -, -⟩ := runs_finalize s hi hs
  exact ⟨hrun.trace, t, hrun.runEngine, hdone, hdigest⟩

/-- Settles O15: a named stage is all that `FXOR` asks for. -/
theorem fxorXorsIntoV2AndArmsFourRounds : Obligations.FxorXorsIntoV2AndArmsFourRounds :=
  fun _ hs => execFxor_next.2 ⟨hs, rfl⟩

/-- Settles O16: a named stage is all that `OUT` asks for. -/
theorem outFoldsTheDigest : Obligations.OutFoldsTheDigest :=
  fun _ hs => execOut_next.2 ⟨hs, rfl⟩

end Sys2Proof
end

section
/-! The statements about the round-function pipe (45_sipround.md): rotation, SipRound and its inverse, `RND`, and the fixed
point of SipRound. -/

namespace Sys2Proof.Machine

/-- A rotation by 32 brings each half of the word to the other's place (45_sipround.md R177). -/
theorem rotl64_swaps_halves (x : Word) :
    rotl64 x 32 = x.extractLsb' 0 32 ++ x.extractLsb' 32 32 := by
  refine BitVec.eq_of_getLsbD_eq fun k hk => ?_
  rw [rotl64_getLsbD x 32 k (by decide) (by decide) hk, BitVec.getLsbD_append]
  by_cases hlow : k < 32
  · rw [show (k + 64 - 32) % 64 = 32 + k by omega]
    simp [hlow]
  · rw [show (k + 64 - 32) % 64 = k - 32 by omega]
    simp [hlow, show k - 32 < 32 by omega]

/-- The inverse steps undo SipRound: each rotation meets the one it undoes, each addition its subtraction, and each
exclusive-or itself (45_sipround.md R174). -/
theorem sipRoundInv_sipRound (v : Acc) : sipRoundInv (sipRound v) = v := by
  simp (disch := decide) only [sipRound, sipRoundInv, rotl64_rotl64, BitVec.add_sub_cancel,
    BitVec.xor_assoc, BitVec.xor_self, BitVec.xor_zero]

/-- SipRound undoes the inverse steps (45_sipround.md R174). -/
theorem sipRound_sipRoundInv (v : Acc) : sipRound (sipRoundInv v) = v := by
  simp (disch := decide) only [sipRound, sipRoundInv, rotl64_rotl64, BitVec.sub_add_cancel,
    BitVec.xor_assoc, BitVec.xor_self, BitVec.xor_zero]

/-- `k0` goes into both even words, so they differ as their constants do (41_init.md R120). -/
theorem initAcc_ne_zero {c : InitConstants} (h : c.iv0 ≠ c.iv2) (k0 k1 : Word) :
    initAcc c k0 k1 ≠ ⟨0#64, 0#64, 0#64, 0#64⟩ := by
  intro hzero
  obtain ⟨h0, -, h2, -⟩ := Acc.mk.inj hzero
  exact h ((BitVec.xor_left_inj k0).1 (h0.trans h2.symm))

/-- The code that follows `RND`, from the count before it (45_sipround.md R170). -/
theorem encode_roundSuccessor (rc : BitVec 3) (stg : BitVec 2) :
    encode (roundSuccessor (rc - 1) stg) =
      if rc = 1#3 then (if stg = 2#2 then 0x9#4 else 0x7#4) else 0x6#4 := by
  have hlast : rc - 1 = 0 ↔ rc = 1#3 := sub_eq_zero
  by_cases hrc : rc = 1#3
  · rw [roundSuccessor, if_neg (not_not.2 (hlast.2 hrc)), if_pos hrc]
    exact apply_ite encode ..
  · rw [roundSuccessor, if_pos (mt hlast.1 hrc), if_neg hrc, encode_rnd]

end Sys2Proof.Machine

namespace Sys2Proof

open Machine

/-- Settles O21: bit `(i + n) mod 64` of the rotation is the word's bit `n` places back round the circle, which is `i`. -/
theorem rotationMovesEveryBitCircularly : Obligations.RotationMovesEveryBitCircularly := by
  refine ⟨fun x n i h0 hn hi => ?_, rotl64_swaps_halves⟩
  have hback : ((i + n) % 64 + 64 - n) % 64 = i := by omega
  rw [rotl64_getLsbD x n _ h0 hn (Nat.mod_lt _ (by decide)), hback]

/-- Settles O23: a two-sided inverse makes a bijection. -/
theorem sipRoundIsABijection : Obligations.SipRoundIsABijection :=
  have left : Function.LeftInverse sipRoundInv sipRound := sipRoundInv_sipRound
  have right : Function.RightInverse sipRoundInv sipRound := sipRound_sipRoundInv
  ⟨⟨left.injective, right.surjective⟩, left, right⟩

/-- Settles O24: `INIT` leaves an `initAcc` of the configured constants, whose `iv0` and `iv2` differ (log 15). -/
theorem initNeverProducesTheZeroFixedPoint : Obligations.InitNeverProducesTheZeroFixedPoint := by
  refine ⟨by decide, fun s t h => ?_⟩
  obtain ⟨_, b0, b1, -, -, -, -, -, rfl⟩ := execInit_next.1 h
  exact initAcc_ne_zero (by decide) (le64 b0) (le64 b1)

/-- Settles O13: the counts a stage's burst can have pass the guard of `RND`. -/
theorem rndRunsOneRound : Obligations.RndRunsOneRound := by
  intro s h
  rw [← encode_roundSuccessor]
  obtain ⟨hs, hcount⟩ : s.stg ≠ Stage.reserved ∧ s.rc ≠ 0 ∧ s.rc ≤ burstLength s.stg := by
    rcases h with ⟨hstg, hrc⟩ | ⟨hstg, hrc⟩
    · rw [burstLength_absorbing hstg]
      refine ⟨(absorbing_stage hstg).1, ?_⟩
      rcases hrc with hrc | hrc <;> simp [hrc]
    · rw [burstLength_final hstg]
      refine ⟨by simp [hstg], ?_⟩
      rcases hrc with hrc | hrc | hrc | hrc <;> simp [hrc]
  exact execRnd_next.2 ⟨hs, hcount, rfl⟩

/-- Settles O22: the closed form gives a name to the value each assignment writes. -/
theorem sipRoundClosedForm : Obligations.SipRoundClosedForm :=
  fun _ _ _ _ => rfl

end Sys2Proof
end

section
/-! The invariant of the sequencer (46_sequencer.md R196): each operation keeps its control part. -/

namespace Sys2Proof.Machine

variable {s t u : State} {i : Instr} {j : JobDescriptor}

/-- A transfer of control to an operation whose fact holds establishes the control invariant. -/
theorem controlInv_goto (hj : u.job = some j) (hw : j.wf) (h : controlFact i j u) :
    ControlInv (goto i u) :=
  controlInv_of_at (i := i) rfl hj hw (by cases i <;> exact h)

/-- Whatever the engine is at but IDLE, a job is captured, and the invariant says its fact about it. -/
theorem ControlInv.captured (h : ControlInv s) (hi : s.seq = encode i) (hne : i ≠ .idle) :
    ∃ j, s.job = some j ∧ j.wf ∧ controlFact i j s := by
  have hheld := h.held fun hidle => hne (encode_injective (hi.symm.trans hidle))
  obtain ⟨j, hj⟩ := Option.isSome_iff_exists.1 hheld
  exact ⟨j, hj, h.descriptor j hj, h.at hi hj⟩

/-- Either answer of the block-loop test at a block boundary (46_sequencer.md R191, R196 items 3 to 5). -/
theorem controlFact_blockSuccessor {off : Nat} (hk : j.keyLen = 16) (hs : u.stg = Stage.block)
    (ho : u.off = off) (h8 : off % 8 = 0) (hle : off ≤ j.dataLen) :
    controlFact (blockSuccessor off j.dataLen) j u := by
  subst ho
  by_cases hmore : u.off + 8 ≤ j.dataLen
  · rw [blockSuccessor_pos hmore]
    exact ⟨hk, hs, h8, hmore⟩
  · rw [blockSuccessor_neg hmore]
    exact ⟨hk, hs, by omega⟩

/-- One round counted down from a count the burst can have (46_sequencer.md R192, R196 item 7). -/
theorem burst_countdown : ∀ b rc : BitVec 3, rc ≠ 0 → rc ≤ b →
    rc - 1 ≤ b ∧ (b - (rc - 1)).toNat = (b - rc).toNat + 1 := by decide

/-- `RND` leaves its own fact behind but for the count, which may have reached 0: then `XOUT` or `OUT` follows. -/
theorem controlFact_rnd_successor (h : controlFact .rnd j s) (hu : u.stg = s.stg)
    (ho : u.off = s.off) (hrc : u.rc = s.rc - 1) :
    controlFact (roundSuccessor (s.rc - 1) s.stg) j u := by
  obtain ⟨hk, hpending, hle, hplace⟩ := h
  have hcount := (burst_countdown _ _ hpending hle).1
  rw [← hu, ← ho] at hplace
  rw [← hu, ← hrc] at hcount ⊢
  by_cases hlast : u.rc = 0
  · rw [roundSuccessor, if_neg (not_not.2 hlast)]
    rcases hplace with hblock | ⟨htail | hfinal, hend⟩
    · rw [if_neg (by simp [hblock.1])]
      exact ⟨hk, hlast, .inl hblock⟩
    · rw [if_neg (by simp [htail])]
      exact ⟨hk, hlast, .inr ⟨htail, hend⟩⟩
    · rw [if_pos hfinal]
      exact ⟨hk, hlast, hfinal, hend⟩
  · rw [roundSuccessor, if_pos hlast]
    exact ⟨hk, hlast, hcount, hplace⟩

/-- Every operation keeps the control invariant (46_sequencer.md R196 items 1 to 8). -/
theorem exec_keeps_controlInv (h : ControlInv s) (hi : s.seq = encode i)
    (he : exec i s = .next t) : ControlInv t := by
  by_cases hidle : i = .idle
  · subst hidle
    obtain ⟨-, rfl⟩ := execIdle_next.1 he
    exact h
  obtain ⟨j, hj, hw, hf⟩ := h.captured hi hidle
  cases i
  case idle => exact absurd rfl hidle
  case kchk =>
    obtain ⟨hs, j', hj', rfl⟩ := execKchk_next.1 he
    obtain rfl := Option.some.inj (hj.symm.trans hj')
    by_cases hk : j.keyLen = 16
    · rw [if_pos hk]
      exact controlInv_goto hj hw ⟨hs, hk⟩
    · rw [if_neg hk]
      exact controlInv_goto hj hw ⟨hs, hk⟩
  case init =>
    obtain ⟨j', -, -, -, hj', hk, -, -, rfl⟩ := execInit_next.1 he
    obtain rfl := Option.some.inj (hj.symm.trans hj')
    exact controlInv_goto hj hw (controlFact_blockSuccessor hk rfl rfl rfl (Nat.zero_le _))
  case ldblk =>
    obtain ⟨hk, hblock, h8, hmore⟩ := hf
    obtain ⟨-, -, -, -, -, -, rfl⟩ := execLdblk_next.1 he
    exact controlInv_goto hj hw
      ⟨hk, .inl ⟨hblock, (Nat.add_mod_right _ _).trans h8, Nat.le_add_left _ _, hmore⟩⟩
  case pack =>
    obtain ⟨j', -, -, hj', -, -, -, rfl⟩ := execPack_next.1 he
    obtain rfl := Option.some.inj (hj.symm.trans hj')
    exact controlInv_goto hj hw ⟨hf.1, .inr ⟨rfl, rfl⟩⟩
  case xin =>
    obtain ⟨hk, hplace⟩ := hf
    obtain ⟨-, hfinal, rfl⟩ := execXin_next.1 he
    refine controlInv_goto hj hw ⟨hk, by simp, ?_, hplace.imp_right (.imp_left .inl)⟩
    rw [show burstLength s.stg = 2#3 from if_neg hfinal]
    exact BitVec.le_refl _
  case rnd =>
    obtain ⟨-, -, rfl⟩ := execRnd_next.1 he
    exact controlInv_goto hj hw (controlFact_rnd_successor hf rfl rfl rfl)
  case xout =>
    obtain ⟨hk, -, hplace⟩ := hf
    obtain ⟨-, -, -, ⟨j', hblock, hj', rfl⟩ | ⟨hblock, rfl⟩⟩ := execXout_next.1 he
    · obtain rfl := Option.some.inj (hj.symm.trans hj')
      obtain ⟨-, h8, -, hle⟩ := hplace.resolve_right fun htail => by simp [htail.1] at hblock
      exact controlInv_goto hj hw (controlFact_blockSuccessor hk hblock rfl h8 hle)
    · exact controlInv_goto hj hw ⟨hk, hplace.resolve_left fun hb => hblock hb.1⟩
  case fxor =>
    obtain ⟨hk, -, hend⟩ := hf
    obtain ⟨-, rfl⟩ := execFxor_next.1 he
    exact controlInv_goto hj hw ⟨hk, by simp, BitVec.le_refl _, .inr ⟨.inr rfl, hend⟩⟩
  case out =>
    obtain ⟨hs, rfl⟩ := execOut_next.1 he
    exact controlInv_goto hj hw ⟨hs, hf.1⟩
  case done =>
    obtain ⟨-, rfl⟩ := execDone_next.1 he
    exact h
  case err =>
    obtain ⟨-, rfl⟩ := execErr_next.1 he
    exact h

end Sys2Proof.Machine

namespace Sys2Proof

open Machine

/-- Settles O44: a step that goes on is one operation. -/
theorem engineStepKeepsTheControlInvariant : Obligations.EngineStepKeepsTheControlInvariant := by
  intro s t h hstep
  obtain ⟨i, hi, he⟩ := step_next hstep
  exact exec_keeps_controlInv h hi he

end Sys2Proof
end

section
/-! The data invariant (46_sequencer.md R196 items 9 and 10): the accumulator is what `sum64` has computed at each
place of the job. -/

namespace Sys2Proof.Machine

variable {s t u : State} {i : Instr} {j : JobDescriptor} {key data : List Byte}

/-- What the data invariant says at an operation, as `controlFact` does for the control invariant. -/
def dataFact (key data : List Byte) (i : Instr) (s : State) : Prop :=
  match i with
  | .ldblk | .pack => s.v = absorbBlocks data (keyedAcc key) (s.off / 8)
  | .xin => s.v = stageAcc key data s ∧ s.m = stageWord data s
  | .rnd =>
    s.v = sipRounds (burstLength s.stg - s.rc).toNat (armedAcc key data s) ∧
      (s.stg ≠ Stage.final → s.m = stageWord data s)
  | .xout =>
    s.v = sipRounds 2 (armedAcc key data s) ∧ (s.stg ≠ Stage.final → s.m = stageWord data s)
  | .fxor => s.v = absorbAll key data
  | .out => s.v = sipRounds 4 (armedAcc key data s)
  | .done => sum64 key data = some s.digest
  | .idle | .kchk | .init | .err => True

/-- From the fact at the operation back to the invariant. -/
theorem dataInvFor_of_at (hi : s.seq = encode i) (h : dataFact key data i s) :
    DataInvFor key data s := by
  have fact {k : Instr} (hk : s.atOp k) : dataFact key data k s :=
    encode_injective (hi.symm.trans hk) ▸ h
  exact
    { beforeBlock := fun hk => hk.elim (fact ·) (fact ·)
      beforeXin := fact
      inBurst := fun hk => (fact hk).1
      heldWord := fun hk => hk.elim (fun hr => (fact hr).2) (fun hx => (fact hx).2)
      beforeXout := fun hk => (fact hk).1
      beforeFxor := fact
      beforeOut := fact
      result := fact }

/-- The invariant at an operation gives the fact there. -/
theorem DataInvFor.at (h : DataInvFor key data s) (hi : s.seq = encode i) :
    dataFact key data i s := by
  cases i
  case idle => trivial
  case kchk => trivial
  case init => trivial
  case ldblk => exact h.beforeBlock (.inl hi)
  case pack => exact h.beforeBlock (.inr hi)
  case xin => exact h.beforeXin hi
  case rnd => exact ⟨h.inBurst hi, h.heldWord (.inl hi)⟩
  case xout => exact ⟨h.beforeXout hi, h.heldWord (.inr hi)⟩
  case fxor => exact h.beforeFxor hi
  case out => exact h.beforeOut hi
  case done => exact h.result hi
  case err => trivial

theorem dataInvFor_goto (h : dataFact key data i u) : DataInvFor key data (goto i u) :=
  dataInvFor_of_at (i := i) rfl (by cases i <;> exact h)

/-- Both answers of the block-loop test ask for the same accumulator. -/
theorem dataFact_blockSuccessor {off len n : Nat} (hn : u.off / 8 = n)
    (h : u.v = absorbBlocks data (keyedAcc key) n) :
    dataFact key data (blockSuccessor off len) u := by
  subst hn
  unfold blockSuccessor
  split <;> exact h

/-! What the stage determines, in each stage. -/

theorem stageWord_block {n : Nat} (hs : s.stg = Stage.block) (hn : s.off / 8 - 1 = n) :
    stageWord data s = blockWord data n :=
  hn ▸ if_pos hs

theorem stageWord_tail (hs : s.stg = Stage.tail) : stageWord data s = lastWord data :=
  if_neg (by simp [hs])

theorem stageAcc_block {n : Nat} (hs : s.stg = Stage.block) (hn : s.off / 8 - 1 = n) :
    stageAcc key data s = absorbBlocks data (keyedAcc key) n :=
  hn ▸ if_pos hs

theorem stageAcc_tail (hs : s.stg = Stage.tail) : stageAcc key data s = absorbFull key data :=
  (if_neg (by simp [hs])).trans (if_pos hs)

theorem armedAcc_absorbing (hs : s.stg ≠ Stage.final) :
    armedAcc key data s = (stageAcc key data s).xorV3 (stageWord data s) :=
  if_neg hs

theorem armedAcc_final (hs : s.stg = Stage.final) :
    armedAcc key data s = (absorbAll key data).xorV2 Config.finalConst := by
  simp [armedAcc, stageAcc, hs]

/-- Before the first round of a burst the accumulator is the armed one. -/
theorem dataFact_burst_start (hrc : u.rc = burstLength u.stg) (hv : u.v = armedAcc key data u)
    (hm : u.stg ≠ Stage.final → u.m = stageWord data u) : dataFact key data .rnd u := by
  refine ⟨?_, hm⟩
  rw [hrc, BitVec.sub_self]
  exact hv

/-- `RND` moves the accumulator one round on in its burst, whose last round leaves what `XOUT` or `OUT` asks for. -/
theorem dataFact_rnd_successor (h : dataFact key data .rnd s) (hpending : s.rc ≠ 0)
    (hle : s.rc ≤ burstLength s.stg) :
    dataFact key data (roundSuccessor (s.rc - 1) s.stg)
      { s with v := sipRound s.v, rc := s.rc - 1 } := by
  obtain ⟨hv, hm⟩ := h
  have hround : sipRound s.v =
      sipRounds (burstLength s.stg - (s.rc - 1)).toNat (armedAcc key data s) := by
    rw [(burst_countdown _ _ hpending hle).2, sipRounds_succ, ← hv]
  by_cases hlast : s.rc - 1 = 0
  · rw [hlast, show burstLength s.stg - 0 = burstLength s.stg from BitVec.sub_zero _] at hround
    rw [roundSuccessor, if_neg (not_not.2 hlast)]
    by_cases hfinal : s.stg = Stage.final
    · rw [if_pos hfinal]
      rw [burstLength_final hfinal] at hround
      exact hround
    · rw [if_neg hfinal]
      rw [show burstLength s.stg = 2#3 from if_neg hfinal] at hround
      exact ⟨hround, hm⟩
  · rw [roundSuccessor, if_pos hlast]
    exact ⟨hround, hm⟩

/-- `XOUT` completes the absorption of the stage's word (42_compress.md R133). -/
theorem xout_completes_compress (h : dataFact key data .xout s) (hs : s.stg ≠ Stage.final) :
    s.v.xorV0 s.m = compress (stageAcc key data s) (stageWord data s) := by
  obtain ⟨hv, hm⟩ := h
  rw [hv, hm hs, armedAcc_absorbing hs, compress]

/-- Every operation keeps the data invariant, where the control invariant holds. -/
theorem exec_keeps_dataInvFor (hc : ControlInv s) (hj : s.job = some j)
    (hd : DataInvFor j.keyBytes j.dataBytes s) (hi : s.seq = encode i) (he : exec i s = .next t) :
    DataInvFor j.keyBytes j.dataBytes t := by
  have hw := hc.descriptor j hj
  have hctrl := hc.at hi hj
  have hdata := hd.at hi
  cases i
  case idle =>
    obtain ⟨-, rfl⟩ := execIdle_next.1 he
    exact hd
  case kchk =>
    obtain ⟨-, j', -, rfl⟩ := execKchk_next.1 he
    exact dataInvFor_goto (by split <;> trivial)
  case init =>
    obtain ⟨hs, hk⟩ := hctrl
    obtain rfl := next_eq_iff.1 ((execInit_wf hj hw hk hs).symm.trans he)
    exact dataInvFor_goto (dataFact_blockSuccessor (Nat.zero_div 8) rfl)
  case ldblk =>
    obtain ⟨-, hblock, h8, -⟩ := hctrl
    obtain ⟨j', bs, -, hj', -, hb, rfl⟩ := execLdblk_next.1 he
    obtain rfl := Option.some.inj (hj.symm.trans hj')
    obtain ⟨-, rfl⟩ := (memRead_some_iff hw).1 hb
    have hprev : (s.off + 8) / 8 - 1 = s.off / 8 := by omega
    have hword : le64 ((j.dataBytes.drop s.off).take 8) = blockWord j.dataBytes (s.off / 8) := by
      rw [blockWord, show 8 * (s.off / 8) = s.off by omega]
    exact dataInvFor_goto ⟨hdata.trans (Eq.symm (stageAcc_block hblock hprev)),
      hword.trans (Eq.symm (stageWord_block hblock hprev))⟩
  case pack =>
    obtain ⟨-, -, hhead⟩ := hctrl
    obtain ⟨j', bs, -, hj', hle, -, hb, rfl⟩ := execPack_next.1 he
    obtain rfl := Option.some.inj (hj.symm.trans hj')
    obtain rfl := Option.some.inj ((memRead_toEnd (sp := .msg) hw hle).symm.trans hb)
    have hlen := JobDescriptor.dataBytes_length hw
    have hfull : s.off / 8 = j.dataLen / 8 := by omega
    refine dataInvFor_goto ⟨?_, ?_⟩
    · rw [stageAcc_tail rfl, absorbFull, hlen, ← hfull]
      exact hdata
    · rw [stageWord_tail rfl, lastWord, hlen, ← hhead]
      rfl
  case xin =>
    obtain ⟨hv, hm⟩ := hdata
    obtain ⟨-, hs, rfl⟩ := execXin_next.1 he
    have harmed : s.v.xorV3 s.m = armedAcc j.keyBytes j.dataBytes s := by
      rw [armedAcc_absorbing hs, hv, hm]
    exact dataInvFor_goto (dataFact_burst_start (if_neg hs).symm harmed fun _ => hm)
  case rnd =>
    obtain ⟨-, ⟨hpending, hle⟩, rfl⟩ := execRnd_next.1 he
    exact dataInvFor_goto (dataFact_rnd_successor hdata hpending hle)
  case xout =>
    obtain ⟨-, -, hplace⟩ := hctrl
    obtain ⟨-, hs, -, ⟨j', hblock, hj', rfl⟩ | ⟨hblock, rfl⟩⟩ := execXout_next.1 he
    · obtain ⟨-, -, h8, -⟩ := hplace.resolve_right fun htail => by simp [htail.1] at hblock
      have hnext : s.off / 8 = s.off / 8 - 1 + 1 := by omega
      refine dataInvFor_goto (dataFact_blockSuccessor hnext ?_)
      rw [xout_completes_compress hdata hs, stageAcc_block hblock rfl, stageWord_block hblock rfl]
      rfl
    · have htail := (hplace.resolve_left fun hb => hblock hb.1).1
      refine dataInvFor_goto (i := .fxor) ?_
      rw [xout_completes_compress hdata hs, stageAcc_tail htail, stageWord_tail htail]
      rfl
  case fxor =>
    obtain ⟨-, rfl⟩ := execFxor_next.1 he
    exact dataInvFor_goto (dataFact_burst_start rfl
      ((congrArg (Acc.xorV2 · _) hdata).trans (armedAcc_final rfl).symm) fun hs => absurd rfl hs)
  case out =>
    obtain ⟨hk, -, hfinal, -⟩ := hctrl
    obtain ⟨-, rfl⟩ := execOut_next.1 he
    refine dataInvFor_goto (i := .done) ?_
    have hkey := (JobDescriptor.keyBytes_length hw).trans hk
    have hv : s.v = sipRounds 4 (armedAcc j.keyBytes j.dataBytes s) := hdata
    rw [armedAcc_final hfinal] at hv
    rw [dataFact, sum64, if_pos hkey, finalize, ← hv]
  case done =>
    obtain ⟨-, rfl⟩ := execDone_next.1 he
    exact hd
  case err =>
    obtain ⟨-, rfl⟩ := execErr_next.1 he
    exact hd

end Sys2Proof.Machine

namespace Sys2Proof

open Machine

/-- Settles O43: at IDLE the invariant asks for a named stage only, and there is no job. -/
theorem invariantHoldsAtReset : Obligations.InvariantHoldsAtReset where
  control := controlInv_of_idle rfl (by simp) (by simp)
  data := by simp [DataInv]

/-- Settles O45: an operation keeps both parts; SUBMIT brings any state to KCHK, where the data part asks for nothing; RESET
ends in the state after reset. -/
theorem everyMoveKeepsTheWholeInvariant : Obligations.EveryMoveKeepsTheWholeInvariant := by
  rintro mv s t ⟨hc, hd⟩ h
  cases mv with
  | engine =>
    obtain ⟨i, hi, he⟩ := step_next h
    refine ⟨exec_keeps_controlInv hc hi he, fun j hj => ?_⟩
    rw [exec_job he] at hj
    exact exec_keeps_dataInvFor hc hj (hd j hj) hi he
  | host r =>
    rcases act_host_next h with ⟨j, -, hsub⟩ | ⟨-, rfl⟩ | ⟨-, rfl⟩
    · obtain ⟨-, hs, hw, rfl⟩ := submit_next.1 hsub
      exact ⟨controlInv_goto rfl hw hs, fun _ _ => dataInvFor_goto trivial⟩
    · exact invariantHoldsAtReset
    · exact ⟨hc, hd⟩

end Sys2Proof
end

section
/-! What follows from the invariant: no move faults, and in every reachable DONE state the digest is `sum64`. -/

namespace Sys2Proof.Machine

variable {s t : State} {i : Instr}

/-- Under the control invariant every guard of the operation `seq` selects is met (30_encoding.md R79). -/
theorem exec_goes_on (h : ControlInv s) (hi : s.seq = encode i) : ∃ t, exec i s = .next t := by
  have hs := h.stageNamed
  by_cases hidle : i = .idle
  · subst hidle
    exact ⟨_, execIdle_next.2 ⟨hs, rfl⟩⟩
  obtain ⟨j, hj, hw, hf⟩ := h.captured hi hidle
  cases i
  case idle => exact absurd rfl hidle
  case kchk => exact ⟨_, execKchk_next.2 ⟨hs, j, hj, rfl⟩⟩
  case init => exact ⟨_, execInit_wf hj hw hf.2 hs⟩
  case ldblk =>
    obtain ⟨-, -, -, hmore⟩ := hf
    exact ⟨_, execLdblk_next.2 ⟨j, _, hs, hj, hmore, memRead_wf hw hmore, rfl⟩⟩
  case pack =>
    obtain ⟨-, -, hhead⟩ := hf
    have hle : s.off ≤ j.dataLen := by omega
    exact ⟨_, execPack_next.2 ⟨j, _, hs, hj, hle, by omega, memRead_toEnd (sp := .msg) hw hle, rfl⟩⟩
  case xin =>
    have hstg := absorbing_stage (hf.2.imp And.left And.left)
    exact ⟨_, execXin_next.2 ⟨hs, hstg.2, rfl⟩⟩
  case rnd =>
    obtain ⟨-, hpending, hle, -⟩ := hf
    exact ⟨_, execRnd_next.2 ⟨hs, ⟨hpending, hle⟩, rfl⟩⟩
  case xout =>
    obtain ⟨-, hrc, hplace⟩ := hf
    have hstg := absorbing_stage (hplace.imp And.left And.left)
    by_cases hblock : s.stg = Stage.block
    · exact ⟨_, execXout_next.2 ⟨hs, hstg.2, hrc, .inl ⟨j, hblock, hj, rfl⟩⟩⟩
    · exact ⟨_, execXout_next.2 ⟨hs, hstg.2, hrc, .inr ⟨hblock, rfl⟩⟩⟩
  case fxor => exact ⟨_, execFxor_next.2 ⟨hs, rfl⟩⟩
  case out => exact ⟨_, execOut_next.2 ⟨hs, rfl⟩⟩
  case done => exact ⟨_, execDone_next.2 ⟨hs, rfl⟩⟩
  case err => exact ⟨_, execErr_next.2 ⟨hs, rfl⟩⟩

theorem step_goes_on (h : ControlInv s) : ∃ t, step s = .next t := by
  obtain ⟨i, hi⟩ := h.atSome
  rw [step_atOp hi]
  exact exec_goes_on h hi

/-- With no reserved code in the state a transaction is answered or refused (60_exceptions.md R215). -/
theorem hostStep_ne_fault (hseq : s.seq ≤ 0xB#4) (hs : s.stg ≠ Stage.reserved) (r : HostRequest)
    (f : Fault) : hostStep r s ≠ .fault f := by
  have named {α : Type} (k : Host.Outcome α Fault Refusal) : whenNamed s k = k :=
    whenNamed_named (reservedSeq_of_named hseq) hs
  cases r with
  | submit j =>
    simp only [hostStep, submit, named]
    by_cases hb : busy s = true
    · simp [hb]
    · rw [if_neg hb]
      by_cases hw : j.wf
      · rw [if_pos hw]
        simp
      · rw [if_neg hw]
        simp
  | readStatus => simp [hostStep, readStatus, named]
  | readDigest =>
    by_cases hd : doneFlag s = true <;> simp [hostStep, readDigest, named, hd]
  | reset => simp [hostStep]

theorem runMoves_cons_next {mv : Move} {rest : List Move} :
    runMoves (mv :: rest) s = .next t ↔ ∃ u, act mv s = .next u ∧ runMoves rest u = .next t := by
  rw [runMoves]
  split <;> simp [*]

/-- What every move keeps holds after any list of moves. -/
theorem runMoves_keeps {P : State → Prop}
    (keeps : ∀ (mv : Move) (s t : State), P s → act mv s = .next t → P t) {moves : List Move}
    (h : P s) (hrun : runMoves moves s = .next t) : P t := by
  induction moves generalizing s with
  | nil => exact next_eq_iff.1 hrun ▸ h
  | cons mv rest ih =>
    obtain ⟨u, hact, hrest⟩ := runMoves_cons_next.1 hrun
    exact ih (keeps mv s u h hact) hrest

end Sys2Proof.Machine

namespace Sys2Proof

open Machine

/-- Settles O46: the invariant names both codes, and says of each operation what its guards ask. -/
theorem noFaultUnderTheControlInvariant : Obligations.NoFaultUnderTheControlInvariant :=
  fun _ h => ⟨step_goes_on h, hostStep_ne_fault h.named h.stageNamed⟩

/-- Settles O47: the invariant holds after every list of moves, and item 10 of R196 is its clause at DONE. -/
theorem reachableDigestIsSum64 : Obligations.ReachableDigestIsSum64 := by
  intro moves t hrun
  obtain ⟨hc, hd⟩ := runMoves_keeps everyMoveKeepsTheWholeInvariant invariantHoldsAtReset hrun
  refine ⟨step_goes_on hc, fun hdone => ?_⟩
  obtain ⟨j, hj, -⟩ := hc.captured (i := .done) hdone (by decide)
  exact ⟨j, hj, (hd j hj).result hdone⟩

end Sys2Proof
end

section
/-! The successor function (46_sequencer.md R190), row by row. -/

namespace Sys2Proof.Machine

variable {s t : State}

theorem kchk_successor (h : exec .kchk s = .next t) :
    ∃ j, s.job = some j ∧ t.seq = if j.keyLen = 16 then 0x2#4 else 0xB#4 := by
  obtain ⟨-, j, hj, rfl⟩ := execKchk_next.1 h
  exact ⟨j, hj, apply_ite encode ..⟩

theorem init_successor (h : exec .init s = .next t) :
    ∃ j, s.job = some j ∧ t.seq = if 8 ≤ j.dataLen then 0x3#4 else 0x4#4 := by
  obtain ⟨j, -, -, -, hj, -, -, -, rfl⟩ := execInit_next.1 h
  refine ⟨j, hj, (encode_blockSuccessor 0 j.dataLen).trans ?_⟩
  rw [Nat.zero_add]

/-- The count `RND` has just written decides whether the burst is over, and then the stage where it leads. -/
theorem rnd_successor (h : exec .rnd s = .next t) :
    (t.rc ≠ 0#3 → t.seq = 0x6#4) ∧
      (t.rc = 0#3 → s.stg = 0#2 ∨ s.stg = 1#2 → t.seq = 0x7#4) ∧
      (t.rc = 0#3 → s.stg = 2#2 → t.seq = 0x9#4) := by
  obtain ⟨-, -, rfl⟩ := execRnd_next.1 h
  have hseq := encode_roundSuccessor s.rc s.stg
  have hlast : s.rc - 1 = 0 ↔ s.rc = 1#3 := sub_eq_zero
  refine ⟨fun hrc => hseq.trans (if_neg (mt hlast.2 hrc)), fun hrc hs => hseq.trans ?_,
    fun hrc hs => hseq.trans ?_⟩
  · rw [if_pos (hlast.1 hrc), if_neg (absorbing_stage hs).2]
  · rw [if_pos (hlast.1 hrc), if_pos hs]

theorem xout_successor (h : exec .xout s = .next t) :
    (s.stg = 0#2 ∧ ∃ j, s.job = some j ∧
        t.seq = if s.off + 8 ≤ j.dataLen then 0x3#4 else 0x4#4) ∨
      (s.stg = 1#2 ∧ t.seq = 0x8#4) := by
  obtain ⟨hs, hfinal, -, ⟨j, hblock, hj, rfl⟩ | ⟨hblock, rfl⟩⟩ := execXout_next.1 h
  · exact .inl ⟨hblock, j, hj, encode_blockSuccessor ..⟩
  · exact .inr ⟨((stage_cases _ hs).resolve_left hblock).resolve_right hfinal, rfl⟩

/-- The three quiescent rows: `seq` stays. -/
theorem quiescent_successor {i : Instr} (hi : i = .idle ∨ i = .done ∨ i = .err)
    (h : exec i s = .next t) : t.seq = s.seq := by
  rcases hi with rfl | rfl | rfl
  · rw [(execIdle_next.1 h).2]
  · rw [(execDone_next.1 h).2]
  · rw [(execErr_next.1 h).2]

/-- The host's rows: SUBMIT starts a job, RESET ends in IDLE, and the two reads leave `seq` as it is. -/
theorem host_successor {r : HostRequest} (h : act (.host r) s = .next t) :
    match r with
    | .submit _ => quiescent s = true ∧ t.seq = 0x1#4
    | .readStatus | .readDigest => t.seq = s.seq
    | .reset => t.seq = 0x0#4 := by
  rcases act_host_next h with ⟨j, rfl, hsub⟩ | ⟨rfl, rfl⟩ | ⟨rfl | rfl, rfl⟩
  · obtain ⟨hq, -, -, rfl⟩ := submit_next.1 hsub
    exact ⟨hq, rfl⟩
  · rfl
  · rfl
  · rfl

end Sys2Proof.Machine

namespace Sys2Proof

open Machine

/-- Settles O31: the rows of the table; where an operation has one successor, its inversion lemma is the row. -/
theorem successorTable : Obligations.SuccessorTable := by
  refine fun s t => ⟨kchk_successor, init_successor, fun h => ?_, fun h => ?_, fun h => ?_,
    rnd_successor, xout_successor, fun h => ?_, fun h => ?_, fun i => quiescent_successor,
    fun j => host_successor, fun r hr h => ?_, host_successor⟩
  · obtain ⟨-, -, -, -, -, -, rfl⟩ := execLdblk_next.1 h
    rfl
  · obtain ⟨-, -, -, -, -, -, -, rfl⟩ := execPack_next.1 h
    rfl
  · obtain ⟨-, -, rfl⟩ := execXin_next.1 h
    rfl
  · obtain ⟨-, rfl⟩ := execFxor_next.1 h
    rfl
  · obtain ⟨-, rfl⟩ := execOut_next.1 h
    rfl
  · rcases hr with rfl | rfl <;> exact host_successor h

end Sys2Proof
end

section
/-! A whole job: how many operations it has (46_sequencer.md R198), and its run from SUBMIT to its end (R200). -/

namespace Sys2Proof.Machine

theorem length_absorbOpsTimes (n : Nat) : (absorbOpsTimes n).length = 5 * n := by
  induction n with
  | zero => rfl
  | succ n ih =>
    rw [absorbOpsTimes, List.length_append, ih, Nat.mul_succ, Nat.add_comm]
    rfl

theorem count_absorbOpsTimes (i : Instr) (n : Nat) :
    (absorbOpsTimes n).count i = n * absorbOps.count i := by
  induction n with
  | zero => simp [absorbOpsTimes]
  | succ n ih => rw [absorbOpsTimes, List.count_append, ih, Nat.succ_mul, Nat.add_comm]

/-- The count of a kind: those of the parts that every job has, and those of one `ABSORB` for each block. -/
theorem count_sum64Ops (i : Instr) (dataLen : Nat) :
    (sum64Ops 16 dataLen).count i =
      ([Instr.kchk, .init] ++ tailOps ++ finalizeOps).count i + dataLen / 8 * absorbOps.count i := by
  rw [sum64Ops, if_pos rfl]
  simp only [List.count_append, count_absorbOpsTimes]
  omega

end Sys2Proof.Machine

namespace Sys2Proof

open Machine

/-- Settles O56: each kind is counted in the fixed parts and in `ABSORB`. -/
theorem jobOperationCounts : Obligations.JobOperationCounts := by
  refine fun keyLen dataLen => ⟨?_, fun hk => if_neg hk⟩
  rintro rfl
  simp only [count_sum64Ops]
  refine ⟨?_, rfl, rfl, ?_, rfl, ?_, ?_, ?_, rfl, rfl⟩
  · rw [sum64Ops, if_pos rfl, List.length_append, List.length_append, List.length_append,
      length_absorbOpsTimes]
    change 2 + 5 * (dataLen / 8) + 5 + 6 = _
    omega
  · change 0 + dataLen / 8 * 1 = _
    omega
  · change 1 + dataLen / 8 * 1 = _
    omega
  · change 6 + dataLen / 8 * 2 = _
    omega
  · change 1 + dataLen / 8 * 1 = _
    omega

/-- Settles O51: SUBMIT goes on to KCHK, from where the whole job's run goes. -/
theorem engineComputesSum64 : Obligations.EngineComputesSum64 := by
  intro s j hq hs hw hk
  obtain ⟨t, hrun, hdone, hstg, hsum⟩ :=
    runs_job (s := goto .kchk { s with job := some j }) rfl hs rfl hw hk
  have hnamed : t.stg ≠ Stage.reserved := by simp [hstg]
  exact ⟨_, t, t.digest, submit_next.2 ⟨hq, hs, hw, rfl⟩, hrun.busyBefore, hrun.runEngine, hdone,
    hsum, readDigest_done hdone hnamed⟩

/-- Settles O52: the run is the one KCHK, which writes `seq` alone. -/
theorem invalidKeyLengthEndsInErr : Obligations.InvalidKeyLengthEndsInErr := by
  intro s j hq hs hw hk
  have hrun := runs_invalidKey (s := goto .kchk { s with job := some j }) rfl hs rfl hk
  obtain ⟨u, hstep, hu⟩ := runEngine_succ_next.1 hrun.runEngine
  obtain rfl := next_eq_iff.1 hu
  exact ⟨_, _, submit_next.2 ⟨hq, hs, hw, rfl⟩, hstep, rfl, hrun.bytesRead, readStatus_err rfl hs,
    readDigest_not_done (by simp) (by simp) hs⟩

end Sys2Proof
end

section
/-! The statements about the exception and the ports (60_exceptions.md R211, R226). -/

namespace Sys2Proof.Machine

variable {s t : State} {i : Instr}

theorem blockSuccessor_ne_err (off len : Nat) : blockSuccessor off len ≠ .err := by
  unfold blockSuccessor
  split <;> simp

theorem roundSuccessor_ne_err (rc : BitVec 3) (stg : BitVec 2) : roundSuccessor rc stg ≠ .err := by
  unfold roundSuccessor
  split
  · simp
  · split <;> simp

theorem goto_seq_err_iff : (goto i s).seq = 0xB#4 ↔ i = .err :=
  ⟨fun h => encode_injective h, fun h => congrArg encode h⟩

/-- `KCHK` raises InvalidKeyLength exactly for a key length other than 16 (40_job_control.md R104). -/
theorem kchk_raises_iff (h : exec .kchk s = .next t) :
    t.seq = 0xB#4 ↔ ∃ j, s.job = some j ∧ j.keyLen ≠ 16 := by
  obtain ⟨-, j, hj, rfl⟩ := execKchk_next.1 h
  rw [goto_seq_err_iff]
  by_cases hk : j.keyLen = 16 <;> simp [hj, hk]

/-- Every operation but `KCHK` and `ERR` goes on to an operation other than `ERR`. -/
theorem exec_does_not_raise (hi : s.seq = encode i) (h : exec i s = .next t) (hkchk : i ≠ .kchk)
    (herr : i ≠ .err) : t.seq ≠ 0xB#4 := by
  cases i <;> simp only [exec] at h
  case kchk => exact absurd rfl hkchk
  case err => exact absurd rfl herr
  case idle =>
    rw [(execIdle_next.1 h).2, hi]
    simp
  case done =>
    rw [(execDone_next.1 h).2, hi]
    simp
  case init =>
    obtain ⟨_, _, _, _, _, _, _, _, rfl⟩ := execInit_next.1 h
    exact mt goto_seq_err_iff.1 (blockSuccessor_ne_err _ _)
  case ldblk =>
    obtain ⟨_, _, _, _, _, _, rfl⟩ := execLdblk_next.1 h
    simp
  case pack =>
    obtain ⟨_, _, _, _, _, _, _, rfl⟩ := execPack_next.1 h
    simp
  case xin =>
    obtain ⟨_, _, rfl⟩ := execXin_next.1 h
    simp
  case rnd =>
    obtain ⟨_, _, rfl⟩ := execRnd_next.1 h
    exact mt goto_seq_err_iff.1 (roundSuccessor_ne_err _ _)
  case xout =>
    obtain ⟨_, _, _, ⟨_, _, _, rfl⟩ | ⟨_, rfl⟩⟩ := execXout_next.1 h
    · exact mt goto_seq_err_iff.1 (blockSuccessor_ne_err _ _)
    · simp
  case fxor =>
    obtain ⟨_, rfl⟩ := execFxor_next.1 h
    simp
  case out =>
    obtain ⟨_, rfl⟩ := execOut_next.1 h
    simp

/-- `cause` shows no more of `seq` than `status` does. -/
theorem cause_eq_of_status (s : State) : cause s = if status s = 3#2 then 1#1 else 0#1 := by
  unfold cause status idleFlag doneFlag errFlag
  generalize s.seq = c
  revert c
  decide

theorem done_iff_status (s : State) : s.seq = 0xA#4 ↔ status s = 2#2 := by
  unfold status idleFlag doneFlag errFlag
  generalize s.seq = c
  revert c
  decide

end Sys2Proof.Machine

namespace Sys2Proof

open Machine

/-- Settles O32: at KCHK by the length check, at every other operation because none goes on to ERR. -/
theorem onlyKchkRaisesInvalidKeyLength : Obligations.OnlyKchkRaisesInvalidKeyLength := by
  intro s t hs hstep
  obtain ⟨i, hi, he⟩ := step_next hstep
  by_cases hkchk : i = .kchk
  · subst hkchk
    rw [kchk_raises_iff he]
    exact (and_iff_right hi).symm
  · have herr : i ≠ .err := by
      rintro rfl
      exact hs hi
    have hseq : s.seq ≠ 0x1#4 := fun h => hkchk (encode_injective (hi.symm.trans h))
    exact iff_of_false (exec_does_not_raise hi he hkchk herr) fun h => hseq h.1

/-- Settles O42: `status` fixes `cause` and whether the digest port answers. -/
theorem hostSeesOnlyStatusCauseAndDigest : Obligations.HostSeesOnlyStatusCauseAndDigest := by
  intro s s' hn hn' hs hs' hst hdig
  constructor
  · rw [readStatus_named hn' hs', readStatus_named hn hs, cause_eq_of_status, cause_eq_of_status, hst]
  · have hdone : s'.seq = 0xA#4 ↔ s.seq = 0xA#4 := by rw [done_iff_status, done_iff_status, hst]
    by_cases hd : s.seq = 0xA#4
    · rw [readDigest_done (hdone.2 hd) hs', readDigest_done hd hs, hdig hd]
    · rw [readDigest_not_done hn' (mt hdone.1 hd) hs', readDigest_not_done hn hd hs]

end Sys2Proof
end

section
/-! The statements about reset, misuse and the interleaving of the two agents (70_reset_and_hazards.md R240, R246, R253). -/

namespace Sys2Proof.Machine

variable {s t : State}

theorem submit_busy (hb : busy s = true) (hs : s.stg ≠ Stage.reserved) (j : JobDescriptor) :
    submit j s = .refused .submitWhileBusy := by
  have hnamed : s.seq ≤ 0xB#4 := BitVec.le_trans (busy_iff.1 hb).2 (by decide)
  exact (whenNamed_named (reservedSeq_of_named hnamed) hs).trans (if_pos hb)

/-- SUBMIT establishes the control invariant, whatever the block held before. -/
theorem controlInv_of_submit {j : JobDescriptor} (h : submit j s = .next t) : ControlInv t := by
  obtain ⟨-, hs, hw, rfl⟩ := submit_next.1 h
  exact controlInv_goto rfl hw hs

theorem act_readStatus (hseq : s.seq ≤ 0xB#4) (hs : s.stg ≠ Stage.reserved) :
    act (.host .readStatus) s = .next s := by
  obtain ⟨-, -, -, -, hact⟩ := readStatusDecodesSeq s hs
  exact hact hseq

/-- READ_STATUS leaves the state as it is, so in an interleaving with it the engine runs as if it were alone. -/
theorem runMoves_eq_runEngine {moves : List Move} (h : ControlInv s)
    (hmoves : ∀ mv ∈ moves, mv = .engine ∨ mv = .host .readStatus) :
    runMoves moves s = runEngine (moves.count .engine) s := by
  induction moves generalizing s with
  | nil => rfl
  | cons mv rest ih =>
    obtain ⟨hmv, hrest⟩ := List.forall_mem_cons.1 hmoves
    rcases hmv with rfl | rfl
    · obtain ⟨u, hu⟩ := step_goes_on h
      have hact : act .engine s = .next u := hu
      rw [List.count_cons_self, runMoves, runEngine, hact, hu]
      exact ih (engineStepKeepsTheControlInvariant s u h hu) hrest
    · rw [List.count_cons_of_ne (by decide), runMoves, act_readStatus h.named h.stageNamed]
      exact ih h hrest

theorem runEngine_add {n : Nat} (m : Nat) (h : runEngine n s = .next t) :
    runEngine (n + m) s = runEngine m t := by
  induction n generalizing s with
  | zero => rw [Nat.zero_add, next_eq_iff.1 h]
  | succ n ih =>
    obtain ⟨u, hstep, hrun⟩ := runEngine_succ_next.1 h
    rw [Nat.add_right_comm, runEngine, hstep]
    exact ih hrun

/-- Once quiescent the engine stays, so more steps than a run has end where the run ends (log 3). -/
theorem runEngine_past_end {n m : Nat} (h : runEngine n s = .next t) (hq : quiescent t = true)
    (hs : t.stg ≠ Stage.reserved) (hm : n ≤ m) : runEngine m s = .next t := by
  obtain ⟨k, rfl⟩ := Nat.exists_eq_add_of_le hm
  rw [runEngine_add k h]
  exact quiescentEngineWaitsForTheHost k t hq hs

end Sys2Proof.Machine

namespace Sys2Proof

open Machine

/-- Settles O35: SUBMIT looks at `busy` before it looks at the descriptor. -/
theorem submitIsRefusedWhileBusy : Obligations.SubmitIsRefusedWhileBusy :=
  fun _ j h1 h9 hs => submit_busy (busy_iff.2 ⟨h1, h9⟩) hs j

/-- Settles O38: RESET answers the reset state, which is IDLE. -/
theorem resetAlwaysReturnsToIdle : Obligations.ResetAlwaysReturnsToIdle := by
  intro s
  obtain ⟨hseq, hjob, hstatus, hcause, hdigest, hread, hbusy, hdone, herr⟩ := resetStateIsIdle
  exact ⟨State.reset, rfl, hseq, hjob, hstatus, hcause, hdigest,
    fun hs => ⟨hread hs, readDigest_not_done (by simp) (by simp) hs⟩, hbusy, hdone, herr⟩

/-- Settles O53: with the reads dropped, the moves are at least the steps of the whole job's run, and at its end the
engine waits. -/
theorem jobEndsOnceTheEngineHasMovedEnough : Obligations.JobEndsOnceTheEngineHasMovedEnough := by
  intro s s0 j moves hsub hmoves hcount
  rw [runMoves_eq_runEngine (controlInv_of_submit hsub) hmoves]
  obtain ⟨-, hs, hw, rfl⟩ := submit_next.1 hsub
  by_cases hk : j.keyLen = 16
  · obtain ⟨t, hrun, hdone, hstg, hsum⟩ :=
      runs_job (s := goto .kchk { s with job := some j }) rfl hs rfl hw hk
    have hq : quiescent t = true := quiescent_iff.2 (.inr (.inl hdone))
    exact ⟨t, runEngine_past_end hrun.runEngine hq (by simp [hstg]) hcount,
      fun _ => ⟨hdone, hsum⟩, fun hne => absurd hk hne⟩
  · have hrun := runs_invalidKey (s := goto .kchk { s with job := some j }) rfl hs rfl hk
    exact ⟨_, runEngine_past_end hrun.runEngine rfl hs (by omega), fun h => absurd h hk, fun _ => rfl⟩

end Sys2Proof
end
